-- ==== Sys2Proof/Word.lean ====
section
/-! DEFINITION. The value types of PSI-FC: bytes, 16-bit values, nibbles, 6-bit counts and byte runs of a fixed length. -/
namespace Sys2Proof

/-- A byte, an unsigned integer in 0..255, bit 7 the most significant (R7). -/
abbrev Byte := BitVec 8

/-- A 16-bit unsigned value: `panel_id`, `address` (R53). -/
abbrev Half := BitVec 16

/-- The low nibble of a ranged command byte, `cmd_lo` (R95). -/
abbrev Nibble := BitVec 4

/-- The 6-bit registers `cnt` and `len` of the reader (R23). -/
abbrev Count := BitVec 6

/-- A sequence of exactly `n` bytes in offset order, with no numeric value given to the whole (R54). -/
abbrev Bytes (n : Nat) := { l : List Byte // l.length = n }

end Sys2Proof
end

