-- ==== Sys2Proof/Config.lean ====
section
/-! DEFINITION. What is fixed for the block: the parameters of R5, and the closed enumerations of directions, message kinds and decode errors. -/
namespace Sys2Proof

namespace Config

/-- `FRAME_LEN`: bytes in a frame, checksum included (R5, R50). -/
@[simp] abbrev frameBytes : Nat := 37
/-- `PAYLOAD_LEN`: bytes the checksum covers, offsets 0 to 35 (R5, R132). -/
@[simp] abbrev payloadBytes : Nat := 36
/-- `CHK_OFF`: offset of the checksum byte in a full frame (R5, R132). -/
@[simp] abbrev checksumOffset : Nat := 36
/-- `MIN_DECODE_LEN`: the decoder reports TooShort below this many bytes (R5, R161). -/
@[simp] abbrev minDecodeBytes : Nat := 2
/-- `LEN_THRESHOLD`: a first byte greater than this is an explicit length (R5, R194). -/
@[simp] abbrev lengthThreshold : Nat := 4
/-- `MAX_LEN`: clamp of an explicit length (R5, R194). -/
@[simp] abbrev maxLength : Nat := 37

end Config

/-- Who a frame travels to: `request` to the panel, `response` from the panel, live events among them (R81). -/
inductive Direction where
  | request
  | response
deriving DecidableEq, Repr

/-- The ten message kinds (R82). -/
inductive Kind where
  | initiateReq
  | initiateResp
  | initializeReq
  | initializeOk
  | initializeFail
  | actionReq
  | actionResp
  | eepromReq
  | eepromResp
  | liveEvent
deriving DecidableEq, Repr

/-- The three decode errors, the whole set (R211). -/
inductive DecodeError where
  | tooShort
  | unknownCommand
  | checksumMismatch
deriving DecidableEq, Repr

end Sys2Proof
end

