-- ==== Sys2Proof/Machine/Checksum.lean ====
section
/-! DEFINITION. The checksum `CHK` (40_checksum.md) and its 8-bit accumulator form. -/
namespace Sys2Proof

/-- `CHK(b, k)`: the sum of the first `k` bytes of `b`, mod 256 (R130); `BitVec.ofNat 8` is the reduction mod 256. -/
def chk (b : List Byte) (k : Nat) : Byte :=
  BitVec.ofNat 8 ((b.take k).map BitVec.toNat).sum

/-- The same with an 8-bit register that wraps on overflow (R131). -/
def chkAccumulator (b : List Byte) (k : Nat) : Byte :=
  (b.take k).foldl (fun acc x => acc + x) 0

end Sys2Proof
end

