-- ==== Sys2Proof/Machine/Memory.lean ====
section
/-! DEFINITION. The frame offset space (R29, R50): a buffer of 37 byte offsets as a list of cells in one canonical form, with its read and write. -/
namespace Sys2Proof

/-- A frame buffer (`rbuf`, `ebuf`): cells (offset, byte), offsets rising and below 37, no cell holding what an unlisted
offset reads as. -/
abbrev Memory := List Host.Cell

/-- What an unlisted offset reads as. For `ebuf` this is R22, "zero-filled"; for `rbuf` the spec gives no value and 0x00 is
a DESIGN CHOICE (log 4), unsafe. -/
def Memory.unlisted : Byte := 0x00

/-- The buffer with nothing listed, 37 bytes 0x00 (R22). -/
def Memory.empty : Memory := []

/-- `f[a]`, the byte at offset `a` (R9). -/
def Memory.read : Memory → Nat → Byte
  | [], _ => Memory.unlisted
  | (b, w) :: m, a => if a = b then w else Memory.read m a

/-- The buffer without a cell at offset `a`. -/
def Memory.erase (m : Memory) (a : Nat) : Memory := m.filter fun c => c.1 != a

/-- A cell put in its place among cells at rising offsets. -/
def Memory.insert : Memory → Nat → Byte → Memory
  | [], a, v => [(a, v)]
  | (b, w) :: m, a, v => if a < b then (a, v) :: (b, w) :: m else (b, w) :: Memory.insert m a v

/-- `f[a] <- v` (R9), keeping the canonical form: the old cell goes, and a new one comes unless its byte is what an unlisted
offset reads as. -/
def Memory.put (m : Memory) (a : Nat) (v : Byte) : Memory :=
  if v = Memory.unlisted then m.erase a else (m.erase a).insert a v

/-- `MemWrite(f, off, n, v)`: the bytes of `v` at `off`, `off + 1`, … (R9). -/
def Memory.putBytes (m : Memory) (off : Nat) : List Byte → Memory
  | [] => m
  | v :: vs => Memory.putBytes (m.put off v) (off + 1) vs

/-- `f[0..n)`, the bytes at offsets 0 to `n - 1` in offset order (R8). -/
def Memory.toBytes (m : Memory) (n : Nat) : List Byte := (List.range n).map m.read

/-- The cells stand at rising offsets from `lo` on, below 37, and hold no 0x00. -/
def Memory.wfFrom (lo : Nat) : Memory → Bool
  | [] => true
  | (a, v) :: m => decide (lo ≤ a) && decide (a < Config.frameBytes) && (v != Memory.unlisted) && Memory.wfFrom (a + 1) m

/-- The canonical form: two buffers in it that read alike at every offset are equal. -/
def Memory.wf (m : Memory) : Bool := Memory.wfFrom 0 m

end Sys2Proof
end

