-- ==== Sys2Proof/Machine/Operands.lean ====
section
/-! DEFINITION. The operand forms: single bytes, 16-bit big-endian values, byte runs, ranged command bytes, and the label's length (30_encoding.md section 5). -/
namespace Sys2Proof

/-- `b[i]` (R9). No rule reads at or past the length of `b` (R57), so the 0 past the end is never used. -/
def byteAt (b : List Byte) (i : Nat) : Byte := b.getD i 0

/-- `U16BE(b, off) = b[off] * 256 + b[off+1]` (R9, R53). -/
def u16be (b : List Byte) (off : Nat) : Half :=
  BitVec.ofNat 16 ((byteAt b off).toNat * 256 + (byteAt b (off + 1)).toNat)

/-- `v[15:8]`, the byte of a 16-bit value at the lower offset (R53). -/
def highByte (v : Half) : Byte := v.extractLsb' 8 8

/-- `v[7:0]`, the byte of a 16-bit value at the higher offset (R53). -/
def lowByte (v : Half) : Byte := v.extractLsb' 0 8

/-- `PutU16BE(f, off, v)` (R9, R53). -/
def Memory.putU16be (f : Memory) (off : Nat) (v : Half) : Memory :=
  (f.put off (highByte v)).put (off + 1) (lowByte v)

/-- `b[off..off+n)`, a run of exactly `n` bytes (R8, R54). -/
def bytesAt (b : List Byte) (off n : Nat) : Bytes n :=
  ⟨(List.range n).map (fun i => byteAt b (off + i)), by simp⟩

/-- `base | cmd_lo`, the command byte of a range family (R95). -/
def commandOf (base : Byte) (cmdLo : Nibble) : Byte := base ||| cmdLo.setWidth 8

/-- `cmd[3:0]` (R95). -/
def lowNibble (cmd : Byte) : Nibble := cmd.extractLsb' 0 4

/-- The scan of `LabelLen` from `k` downwards: trailing 0x00 bytes are taken off (R176). -/
def labelLenFrom (label : List Byte) : Nat → Nat
  | 0 => 0
  | k + 1 => if byteAt label k = 0x00 then labelLenFrom label k else k + 1

/-- `LabelLen(label)`, 0..16 (R176). -/
def labelLen (label : Bytes 16) : Nat := labelLenFrom label.val 16

end Sys2Proof
end

