-- ==== Sys2Proof/Syntax.lean ====
section
/-! DEFINITION. The instructions: one constructor for each message kind (the `frame37` rows of the opcode table) and one for each class of a first byte (the `first_byte` rows, several rows of one range to a class, R113). -/
namespace Sys2Proof

/-- An instruction of PSI-FC is a message with its fields, or the first byte of an incoming frame with its length class.
The operands of a message are the encoder's (R143 to R152), and besides them the two bytes the encoder takes no input for
and the decoder reports as found: `result` of `initiateResp` (R103) and `userId` of `initializeReq` (R104). -/
inductive Instr where
  /-- INITIATE_REQ, R83. -/
  | initiateReq (userId : Byte)
  /-- INITIATE_RESP, R84. -/
  | initiateResp (result productId fwVer fwRev fwMinor : Byte) (panelId : Half) (pcPassword : Bytes 2) (sourceId userId : Byte)
  /-- INITIALIZE_REQ, R85. -/
  | initializeReq (productId fwVer fwRev fwMinor : Byte) (panelId : Half) (pcPassword : Bytes 2) (sourceId userId : Byte)
  /-- INITIALIZE_OK, R86. -/
  | initializeOk (userId : Byte)
  /-- INITIALIZE_FAIL, R87. -/
  | initializeFail (userId : Byte)
  /-- ACTION_REQ, R88. -/
  | actionReq (action argument sourceId userId34 userId35 : Byte)
  /-- ACTION_RESP, R89. -/
  | actionResp (cmdLo : Nibble) (userId : Byte)
  /-- EEPROM_REQ, R90. -/
  | eepromReq (address : Half) (records sourceId userId34 userId35 : Byte)
  /-- EEPROM_RESP, R91. -/
  | eepromResp (cmdLo : Nibble) (address : Half) (records : Byte) (data : Bytes 27)
  /-- LIVE_EVENT, R92. -/
  | liveEvent (cmdLo : Nibble) (eventGroup event1 event2 partition : Byte) (moduleSerial : Bytes 4) (labelType : Byte) (label : Bytes 16) (userId : Byte)
  /-- LEN_IMPLICIT: a first byte 0 to 4, R98. -/
  | lenImplicit (b0 : Byte)
  /-- LEN_EXPLICIT: a first byte 5 to 36, R98. -/
  | lenExplicit (b0 : Byte)
  /-- LEN_CLAMPED: a first byte 37 to 255, R98. -/
  | lenClamped (b0 : Byte)
deriving DecidableEq, Repr

end Sys2Proof
end

