-- ==== Sys2Proof/WellFormed.lean ====
section
/-! DEFINITION. Which instructions the encodings can carry: the widths are in the types, so what is left are the two bytes with one encodable value and the range of each first-byte class. -/
namespace Sys2Proof

/-- The message kind of an instruction; none for a first byte. -/
def Instr.kind : Instr → Option Kind
  | .initiateReq _ => some .initiateReq
  | .initiateResp _ _ _ _ _ _ _ _ _ => some .initiateResp
  | .initializeReq _ _ _ _ _ _ _ _ => some .initializeReq
  | .initializeOk _ => some .initializeOk
  | .initializeFail _ => some .initializeFail
  | .actionReq _ _ _ _ _ => some .actionReq
  | .actionResp _ _ => some .actionResp
  | .eepromReq _ _ _ _ _ => some .eepromReq
  | .eepromResp _ _ _ _ => some .eepromResp
  | .liveEvent _ _ _ _ _ _ _ _ _ => some .liveEvent
  | .lenImplicit _ => none
  | .lenExplicit _ => none
  | .lenClamped _ => none

/-- The instruction is a message, of one of the ten kinds. -/
def Instr.isMessage (i : Instr) : Bool := i.kind.isSome

/-- An encoded INITIATE_RESP has 0xFF at offset 1 (R103), an encoded INITIALIZE_REQ has 0 at offset 13 (R104), and each
first-byte class covers its own range (R98). Every other operand has exactly the width of its field (R141). -/
def Instr.WellFormed : Instr → Bool
  | .initiateReq _ => true
  | .initiateResp result _ _ _ _ _ _ _ _ => result == 0xFF
  | .initializeReq _ _ _ _ _ _ _ userId => userId == 0x00
  | .initializeOk _ => true
  | .initializeFail _ => true
  | .actionReq _ _ _ _ _ => true
  | .actionResp _ _ => true
  | .eepromReq _ _ _ _ _ => true
  | .eepromResp _ _ _ _ => true
  | .liveEvent _ _ _ _ _ _ _ _ _ => true
  | .lenImplicit b0 => decide (b0.toNat ≤ 4)
  | .lenExplicit b0 => decide (5 ≤ b0.toNat) && decide (b0.toNat ≤ 36)
  | .lenClamped b0 => decide (37 ≤ b0.toNat)

end Sys2Proof
end

