-- ==== Sys2Proof/Decode.lean ====
section
/-! DEFINITION. The decoder `DEC` (selection, three errors, ten extractions), the classes of a first byte, and after them the encoder: the layouts of `ENC.<KIND>` and the bytes of an instruction. -/
namespace Sys2Proof

/-! ## Selection -/

/-- `Select(dir, cmd)` (R82, R162). -/
def select (dir : Direction) (cmd : Byte) : Option Kind :=
  match dir with
  | .request =>
    if cmd = 0x72 then some .initiateReq
    else if cmd = 0x00 then some .initializeReq
    else if cmd = 0x40 then some .actionReq
    else if cmd = 0x50 then some .eepromReq
    else none
  | .response =>
    if cmd = 0x72 then some .initiateResp
    else if cmd = 0x10 then some .initializeOk
    else if cmd = 0x70 then some .initializeFail
    else if 0x40 ≤ cmd.toNat ∧ cmd.toNat < 0x50 then some .actionResp
    else if 0x50 ≤ cmd.toNat ∧ cmd.toNat < 0x60 then some .eepromResp
    else if 0xE0 ≤ cmd.toNat ∧ cmd.toNat < 0xF0 then some .liveEvent
    else none

/-- A row of the dispatch table of R82: a byte selects it when `cmd & mask = match` and the direction is the row's. -/
structure KindRow where
  kind : Kind
  dir : Direction
  matchBits : Byte
  mask : Byte
deriving DecidableEq, Repr

/-- The dispatch table (R82, the `frame37` rows of opcode_table.json). -/
def kindRows : List KindRow :=
  [⟨.initiateReq, .request, 0x72, 0xFF⟩,
   ⟨.initiateResp, .response, 0x72, 0xFF⟩,
   ⟨.initializeReq, .request, 0x00, 0xFF⟩,
   ⟨.initializeOk, .response, 0x10, 0xFF⟩,
   ⟨.initializeFail, .response, 0x70, 0xFF⟩,
   ⟨.actionReq, .request, 0x40, 0xFF⟩,
   ⟨.actionResp, .response, 0x40, 0xF0⟩,
   ⟨.eepromReq, .request, 0x50, 0xFF⟩,
   ⟨.eepromResp, .response, 0x50, 0xF0⟩,
   ⟨.liveEvent, .response, 0xE0, 0xF0⟩]

/-- The direction of a kind (R81, R82). -/
def Kind.dir : Kind → Direction
  | .initiateReq => .request
  | .initiateResp => .response
  | .initializeReq => .request
  | .initializeOk => .response
  | .initializeFail => .response
  | .actionReq => .request
  | .actionResp => .response
  | .eepromReq => .request
  | .eepromResp => .response
  | .liveEvent => .response

/-! ## The layouts offset by offset -/

/-- The runs (offset, length) a layout declares: the command byte, the fields, the checksum (R83 to R92). -/
def Kind.declaredRuns : Kind → List (Nat × Nat)
  | .initiateReq => [(0, 1), (35, 1), (36, 1)]
  | .initiateResp => [(0, 1), (1, 1), (6, 1), (7, 3), (10, 2), (12, 2), (27, 1), (28, 1), (36, 1)]
  | .initializeReq => [(0, 1), (1, 1), (2, 3), (5, 2), (7, 2), (12, 1), (13, 1), (36, 1)]
  | .initializeOk => [(0, 1), (35, 1), (36, 1)]
  | .initializeFail => [(0, 1), (35, 1), (36, 1)]
  | .actionReq => [(0, 1), (4, 1), (5, 1), (33, 1), (34, 1), (35, 1), (36, 1)]
  | .actionResp => [(0, 1), (35, 1), (36, 1)]
  | .eepromReq => [(0, 1), (2, 2), (4, 1), (33, 1), (34, 1), (35, 1), (36, 1)]
  | .eepromResp => [(0, 1), (2, 2), (4, 1), (5, 27), (36, 1)]
  | .liveEvent => [(0, 1), (2, 1), (3, 1), (4, 1), (5, 1), (6, 4), (10, 1), (11, 16), (34, 1), (36, 1)]

/-- An offset of the frame that the kind's layout does not declare (R12 "reserved byte", the dots of R93). -/
def Kind.reserved (k : Kind) (off : Nat) : Bool :=
  decide (off < Config.frameBytes) && !(k.declaredRuns.any fun r => decide (r.1 ≤ off) && decide (off < r.1 + r.2))

/-! ## The ten extractions -/

/-- R166. -/
def extractInitiateReq (b : List Byte) : Instr := .initiateReq (byteAt b 35)

/-- R167. -/
def extractInitiateResp (b : List Byte) : Instr :=
  .initiateResp (byteAt b 1) (byteAt b 6) (byteAt b 7) (byteAt b 8) (byteAt b 9) (u16be b 10) (bytesAt b 12 2)
    (byteAt b 27) (byteAt b 28)

/-- R168. -/
def extractInitializeReq (b : List Byte) : Instr :=
  .initializeReq (byteAt b 1) (byteAt b 2) (byteAt b 3) (byteAt b 4) (u16be b 5) (bytesAt b 7 2) (byteAt b 12) (byteAt b 13)

/-- R169. -/
def extractInitializeOk (b : List Byte) : Instr := .initializeOk (byteAt b 35)

/-- R170. -/
def extractInitializeFail (b : List Byte) : Instr := .initializeFail (byteAt b 35)

/-- R171. -/
def extractActionReq (b : List Byte) : Instr :=
  .actionReq (byteAt b 4) (byteAt b 5) (byteAt b 33) (byteAt b 34) (byteAt b 35)

/-- R172; the whole command byte is `0x40 | cmd_lo`, see `execActionResp`. -/
def extractActionResp (b : List Byte) : Instr := .actionResp (lowNibble (byteAt b 0)) (byteAt b 35)

/-- R173. -/
def extractEepromReq (b : List Byte) : Instr :=
  .eepromReq (u16be b 2) (byteAt b 4) (byteAt b 33) (byteAt b 34) (byteAt b 35)

/-- R174; the whole command byte is `0x50 | cmd_lo`, see `execEepromResp`. -/
def extractEepromResp (b : List Byte) : Instr :=
  .eepromResp (lowNibble (byteAt b 0)) (u16be b 2) (byteAt b 4) (bytesAt b 5 27)

/-- R175; the whole command byte is `0xE0 | cmd_lo`, see `execLiveEvent`. -/
def extractLiveEvent (b : List Byte) : Instr :=
  .liveEvent (lowNibble (byteAt b 0)) (byteAt b 2) (byteAt b 3) (byteAt b 4) (byteAt b 5) (bytesAt b 6 4) (byteAt b 10)
    (bytesAt b 11 16) (byteAt b 34)

/-- `Extract_kind(b)` (R160). -/
def extract (k : Kind) (b : List Byte) : Instr :=
  match k with
  | .initiateReq => extractInitiateReq b
  | .initiateResp => extractInitiateResp b
  | .initializeReq => extractInitializeReq b
  | .initializeOk => extractInitializeOk b
  | .initializeFail => extractInitializeFail b
  | .actionReq => extractActionReq b
  | .actionResp => extractActionResp b
  | .eepromReq => extractEepromReq b
  | .eepromResp => extractEepromResp b
  | .liveEvent => extractLiveEvent b

/-! ## The decoder -/

/-- What the decoder answers: a message, or one of the three errors by name (R160, R211). -/
inductive Decoded where
  | ok (i : Instr)
  | err (e : DecodeError)
deriving DecidableEq, Repr

/-- `DEC dir, b` (R160 to R165), total on any bytes; the tests in the order of R160, the first that fails names the error. -/
def decode (dir : Direction) (b : List Byte) : Decoded :=
  if b.length < Config.minDecodeBytes then .err .tooShort
  else
    match select dir (byteAt b 0) with
    | none => .err .unknownCommand
    | some k =>
      if byteAt b (b.length - 1) ≠ chk b (b.length - 1) then .err .checksumMismatch
      else if b.length ≠ Config.frameBytes then .err .checksumMismatch
      else .ok (extract k b)

/-- The class of the first byte of an incoming frame, as an instruction with that byte (R98); total. -/
def decodeFirstByte (x : Byte) : Instr :=
  if x.toNat ≤ 4 then .lenImplicit x
  else if x.toNat ≤ 36 then .lenExplicit x
  else .lenClamped x

/-! ## The encoder -/

/-- `f[36] <- CHK(f, 36)`, the last step of every ENC (R140, R132). -/
def Memory.finish (f : Memory) : Memory :=
  f.put Config.checksumOffset (chk (f.toBytes Config.payloadBytes) Config.payloadBytes)

/-- R143. -/
def layoutInitiateReq (userId : Byte) : Memory :=
  ((Memory.empty.put 0 0x72).put 35 userId).finish

/-- R144: offset 1 is the constant 0xFF, there is no operand for it (R103). -/
def layoutInitiateResp (productId fwVer fwRev fwMinor : Byte) (panelId : Half) (pcPassword : Bytes 2) (sourceId userId : Byte) :
    Memory :=
  ((((((((((Memory.empty.put 0 0x72).put 1 0xFF).put 6 productId).put 7 fwVer).put 8 fwRev).put 9 fwMinor).putU16be 10
    panelId).putBytes 12 pcPassword.val).put 27 sourceId).put 28 userId).finish

/-- R145: offset 13 stays zero, there is no operand for it (R104). -/
def layoutInitializeReq (productId fwVer fwRev fwMinor : Byte) (panelId : Half) (pcPassword : Bytes 2) (sourceId : Byte) :
    Memory :=
  ((((((((Memory.empty.put 0 0x00).put 1 productId).put 2 fwVer).put 3 fwRev).put 4 fwMinor).putU16be 5
    panelId).putBytes 7 pcPassword.val).put 12 sourceId).finish

/-- R146. -/
def layoutInitializeOk (userId : Byte) : Memory :=
  ((Memory.empty.put 0 0x10).put 35 userId).finish

/-- R147. -/
def layoutInitializeFail (userId : Byte) : Memory :=
  ((Memory.empty.put 0 0x70).put 35 userId).finish

/-- R148. -/
def layoutActionReq (action argument sourceId userId34 userId35 : Byte) : Memory :=
  ((((((Memory.empty.put 0 0x40).put 4 action).put 5 argument).put 33 sourceId).put 34 userId34).put 35 userId35).finish

/-- R149. -/
def layoutActionResp (cmdLo : Nibble) (userId : Byte) : Memory :=
  ((Memory.empty.put 0 (commandOf 0x40 cmdLo)).put 35 userId).finish

/-- R150. -/
def layoutEepromReq (address : Half) (records sourceId userId34 userId35 : Byte) : Memory :=
  ((((((Memory.empty.put 0 0x50).putU16be 2 address).put 4 records).put 33 sourceId).put 34 userId34).put 35
    userId35).finish

/-- R151. -/
def layoutEepromResp (cmdLo : Nibble) (address : Half) (records : Byte) (data : Bytes 27) : Memory :=
  ((((Memory.empty.put 0 (commandOf 0x50 cmdLo)).putU16be 2 address).put 4 records).putBytes 5 data.val).finish

/-- R152. -/
def layoutLiveEvent (cmdLo : Nibble) (eventGroup event1 event2 partition : Byte) (moduleSerial : Bytes 4)
    (labelType : Byte) (label : Bytes 16) (userId : Byte) : Memory :=
  (((((((((Memory.empty.put 0 (commandOf 0xE0 cmdLo)).put 2 eventGroup).put 3 event1).put 4 event2).put 5
    partition).putBytes 6 moduleSerial.val).put 10 labelType).putBytes 11 label.val).put 34 userId).finish

/-- The bytes of an instruction: the 37 bytes `ENC.<KIND>` returns (R140), or the first byte itself (R98). -/
def encode (i : Instr) : List Byte :=
  match i with
  | .initiateReq u => (layoutInitiateReq u).toBytes Config.frameBytes
  | .initiateResp _ p v r m n w src u => (layoutInitiateResp p v r m n w src u).toBytes Config.frameBytes
  | .initializeReq p v r m n w src _ => (layoutInitializeReq p v r m n w src).toBytes Config.frameBytes
  | .initializeOk u => (layoutInitializeOk u).toBytes Config.frameBytes
  | .initializeFail u => (layoutInitializeFail u).toBytes Config.frameBytes
  | .actionReq a g src u34 u35 => (layoutActionReq a g src u34 u35).toBytes Config.frameBytes
  | .actionResp lo u => (layoutActionResp lo u).toBytes Config.frameBytes
  | .eepromReq a r src u34 u35 => (layoutEepromReq a r src u34 u35).toBytes Config.frameBytes
  | .eepromResp lo a r d => (layoutEepromResp lo a r d).toBytes Config.frameBytes
  | .liveEvent lo g e1 e2 p ms t l u => (layoutLiveEvent lo g e1 e2 p ms t l u).toBytes Config.frameBytes
  | .lenImplicit b0 => [b0]
  | .lenExplicit b0 => [b0]
  | .lenClamped b0 => [b0]

/-! ## Words as the opcode table numbers their bits -/

/-- The first `n` bytes of a table word: bit 0 of `w` is bit 0 of the byte at offset 0, the next byte's bits count on. -/
def tableBytes (n w : Nat) : List Byte := (List.range n).map fun i => BitVec.ofNat 8 (w / 256 ^ i)

/-- The frame a table word stands for: bits the table does not give are 0 at offsets 0 to 35, and the checksum at offset 36
is the computed one (it is no operand, R113 `computed`) unless the word itself reaches offset 36 (log 14). -/
def tableFrame (nbits w : Nat) : List Byte :=
  if nbits ≤ 8 * Config.payloadBytes then
    let p := tableBytes Config.payloadBytes (w % 2 ^ nbits)
    p ++ [chk p Config.payloadBytes]
  else tableBytes Config.frameBytes w

/-- How a table word reaches the block. -/
inductive TableWord where
  | buffer (dir : Direction) (b : List Byte)
  | firstByte (x : Byte)
deriving DecidableEq, Repr

/-- The port at which a table word is an instruction: the decoder in direction Request, else in direction Response, else,
for a word of one byte, the reader waiting for a first byte (DESIGN CHOICE, log 14: the bits alone do not tell, R10, R81). -/
def tableWord (nbits w : Nat) : TableWord :=
  match decode .request (tableFrame nbits w) with
  | .ok _ => .buffer .request (tableFrame nbits w)
  | .err _ =>
    match decode .response (tableFrame nbits w) with
    | .ok _ => .buffer .response (tableFrame nbits w)
    | .err _ =>
      if nbits ≤ 8 then .firstByte (BitVec.ofNat 8 (w % 2 ^ nbits)) else .buffer .response (tableFrame nbits w)

/-- The instruction the decoder reads from a table word; none where it refuses. -/
def decodeTableWord (nbits w : Nat) : Option Instr :=
  match tableWord nbits w with
  | .firstByte x => some (decodeFirstByte x)
  | .buffer dir b =>
    match decode dir b with
    | .ok i => some i
    | .err _ => none

end Sys2Proof
end

