-- ==== Sys2Proof/Machine/State.lean ====
section
/-! DEFINITION. The state as plain data: the reader's four registers, the Transport's receive stream, and the model's own three fields for the ports; results, inputs, faults, refusals; reset. -/
namespace Sys2Proof.Machine

/-- `phase` (R23): no read in progress, waiting for the first byte, waiting for the remaining bytes. -/
inductive Phase where
  | idle
  | first
  | rest
deriving DecidableEq, Repr

/-- At which of the codec's two ports the host presented the message in hand (R10: the port selects the operation). -/
inductive Port where
  | encoder
  | decoder
deriving DecidableEq, Repr

/-- The typed message `DEC` returns: the kind and its fields (R166 to R175). -/
inductive Message where
  | initiateReq (userId : Byte)
  | initiateResp (result productId fwVer fwRev fwMinor : Byte) (panelId : Half) (pcPassword : Bytes 2) (sourceId userId : Byte)
  | initializeReq (productId fwVer fwRev fwMinor : Byte) (panelId : Half) (pcPassword : Bytes 2) (sourceId userId : Byte)
  | initializeOk (userId : Byte)
  | initializeFail (userId : Byte)
  | actionReq (action argument sourceId userId34 userId35 : Byte)
  | actionResp (command : Byte) (cmdLo : Nibble) (userId : Byte)
  | eepromReq (address : Half) (records sourceId userId34 userId35 : Byte)
  | eepromResp (command : Byte) (cmdLo : Nibble) (address : Half) (records : Byte) (data : Bytes 27)
  | liveEvent (command : Byte) (cmdLo : Nibble) (eventGroup event1 event2 partition : Byte) (moduleSerial : Bytes 4)
      (labelType : Byte) (label : Bytes 16) (labelLen : Nat) (userId : Byte)
deriving DecidableEq, Repr

/-- What an operation hands to the host at its end (R210). -/
inductive Result where
  /-- `CHK`: one byte. -/
  | checksum (v : Byte)
  /-- `ENC.<KIND>`: the 37 bytes of `ebuf`. -/
  | encoded (f : List Byte)
  /-- `DEC`, `Ok`: the kind and its fields. -/
  | decoded (m : Message)
  /-- `DEC`, one of the three errors. -/
  | decodeError (e : DecodeError)
  /-- `RDF`, `Frame`: the bytes read, 1 to 37 of them. -/
  | frame (b : List Byte)
  /-- `RDF`, `Empty`. -/
  | empty
  /-- `RDF`, `TransportError`. -/
  | transportError
deriving DecidableEq, Repr

/-- One thing the host or the environment does next (R11). -/
inductive Input where
  /-- The host drives `CHK b, k` (R130). -/
  | chk (b : List Byte) (k : Nat)
  /-- The host drives `ENC` of this message's kind with its fields (R140). -/
  | enc (i : Instr)
  /-- The host drives `DEC dir, b` (R160). -/
  | dec (dir : Direction) (b : List Byte)
  /-- The host starts `RDF` (R191). -/
  | rdf
  /-- The host has the Transport drop what it holds, `resetInputBuffer()` (R65). -/
  | resetInput
  /-- A byte reaches the Transport's receive stream (R30). -/
  | arrive (x : Byte)
  /-- Event `B`: the Transport delivers the byte at the front of its stream to the read in progress (R190). -/
  | deliver
  /-- Event `T`: the read in progress has timed out (R190). -/
  | timeout
  /-- Event `E`: the read in progress has failed (R190). -/
  | ioError
deriving DecidableEq, Repr

/-- The machine. `phase`, `cnt`, `len`, `rbuf` are the block's registers (R23), `rx` the Transport's receive stream (R29,
R30); `inputs`, `port` and `result` are the model's own fields (log 1, 5, 6). -/
structure State where
  /-- 2 bits, R23. -/
  phase : Phase
  /-- 6 bits, the bytes of the current frame already stored (R23, R24). -/
  cnt : Count
  /-- 6 bits, the target length, meaningful only in phase Rest (R23). -/
  len : Count
  /-- 37 bytes, only `rbuf[0..cnt)` is meaningful (R23). -/
  rbuf : Memory
  /-- The bytes waiting in the Transport, front first (R29, R30). -/
  rx : List Byte
  /-- What the host and the environment do next, first to last. -/
  inputs : List Input
  /-- At which codec port the message in hand stands. -/
  port : Port
  /-- What the operation that ended in the last step handed over; none if none ended (R26: a status is not kept). -/
  result : Option Result
deriving DecidableEq, Repr

/-- Why the machine stops. -/
inductive Fault where
  /-- The reader would store or present a byte of `rbuf` at an offset above 36, which does not exist (R50). Raised by
  `furtherByte` and `presentFrame`, only in states that break R25, which no run reaches. Safe: the machine stops. -/
  | offsetOutsideFrame
deriving DecidableEq, Repr

/-- Why the machine has no step. Every one of them is safe: the model stops where the spec gives no rule. -/
inductive Refusal where
  /-- An instruction whose meaning is not written yet; raised by `exec`'s arm only. Safe. -/
  | notModelled (mnemonic : String)
  /-- `RDF` started while one is running (R204); raised by `startRead`. Safe. -/
  | readInProgress
  /-- The host resets the Transport's input while an `RDF` runs (R64, U17); raised by `resetInput`. Safe. -/
  | resetDuringRead
  /-- An event `B`, `T` or `E` when no read is in progress (R190); raised by the reader's event operations. Safe. -/
  | noReadInProgress
  /-- An event `B` when no byte waits: none is invented (R63); raised by `deliver`. Safe. -/
  | noByteWaiting
  /-- A first-byte instruction executed outside phase First, where the byte is no first byte (R192); raised by `firstByte`.
  No step reaches it. Safe. -/
  | notFirstByte
  /-- A buffer of more than 37 bytes at the port of `CHK` or `DEC`, which cannot be presented (R160, U6). Safe. -/
  | bufferTooLong
  /-- `CHK b, k` with `k > |b|`, outside its domain (R57, R130). Safe. -/
  | countBeyondBuffer
  /-- A first-byte class presented at the encoder's port, which builds the ten kinds only (R94, R141). Safe. -/
  | notAMessageKind
deriving DecidableEq, Repr

/-- The machine right after reset: `phase = Idle`, `cnt = 0` (R32, R240); `len` and `rbuf` are unspecified and
unobservable there, 0 is a DESIGN CHOICE (log 3, 4); the receive stream is unspecified, empty is a DESIGN CHOICE (log 2); no
input is pending (log 1), no status exists (R26). -/
def State.reset : State where
  phase := .idle
  cnt := 0
  len := 0
  rbuf := Memory.empty
  rx := []
  inputs := []
  port := .decoder
  result := none

end Sys2Proof.Machine
end

