-- ==== Sys2Proof/Machine/Ops.lean ====
section
/-! DEFINITION. The shared operations over the state: handing a result to the host, raising an error, and the reader's register operations (43_frame_reader.md). -/
namespace Sys2Proof.Machine

/-- `return v`: the operation ends and the host gets `v` (R9). -/
def deliverResult (r : Result) (s : State) : State := { s with result := some r }

/-- TAKING AN EXCEPTION of this block, `raise <Error>` in `DEC`: the result is the error value and no state changes. Nothing
is saved, no mode is entered, control goes to no vector, no error is latched (R217). There is no return from it, because
nothing was entered: the block is ready for the next operation at once (R218). -/
def raise (e : DecodeError) (s : State) : Host.Outcome State Fault Refusal :=
  .next (deliverResult (.decodeError e) s)

/-- A message at one of the codec's ports (R10): the encoder hands over the frame (R140), the decoder the typed message
(R160). -/
def codec (frame : Memory) (message : Message) (s : State) : Host.Outcome State Fault Refusal :=
  match s.port with
  | .encoder => .next (deliverResult (.encoded (frame.toBytes Config.frameBytes)) s)
  | .decoder => .next (deliverResult (.decoded message) s)

/-- `FrameLen(x)` (R194), 5..37 in the 6 bits of `len`. -/
def frameLen (x : Byte) : Count :=
  if x.toNat > Config.lengthThreshold then BitVec.ofNat 6 (min x.toNat Config.maxLength)
  else BitVec.ofNat 6 Config.maxLength

/-- The reader back in Idle with `cnt = 0` (R196, R197, R198). -/
def endRead (s : State) : State := { s with phase := .idle, cnt := 0 }

/-- Start of `RDF` (R191); refused while a read runs (R204). -/
def startRead (s : State) : Host.Outcome State Fault Refusal :=
  match s.phase with
  | .idle => .next { s with phase := .first, cnt := 0 }
  | .first => .refused .readInProgress
  | .rest => .refused .readInProgress

/-- The first byte `x` arrives and the reader aims for `target` bytes (R192). -/
def firstByte (x : Byte) (target : Count) (s : State) : Host.Outcome State Fault Refusal :=
  match s.phase with
  | .first => .next { s with rbuf := s.rbuf.put 0 x, cnt := 1, len := target, phase := .rest }
  | .idle => .refused .notFirstByte
  | .rest => .refused .notFirstByte

/-- `result <- Frame(rbuf[0..n))`, and the reader ends (R196, R197); an offset above 36 does not exist (R50). -/
def presentFrame (n : Nat) (s : State) : Host.Outcome State Fault Refusal :=
  if n ≤ Config.frameBytes then .next (deliverResult (.frame (s.rbuf.toBytes n)) (endRead s))
  else .fault .offsetOutsideFrame

/-- `rbuf[cnt] <- x; cnt <- cnt + 1` (R195). -/
def storeByte (x : Byte) (s : State) : State :=
  { s with rbuf := s.rbuf.put s.cnt.toNat x, cnt := s.cnt + 1 }

/-- A further byte arrives in phase Rest (R195), and the frame is complete when `cnt = len` (R196). -/
def furtherByte (x : Byte) (s : State) : Host.Outcome State Fault Refusal :=
  if s.cnt.toNat < Config.frameBytes then
    if (storeByte x s).cnt = s.len then presentFrame s.len.toNat (storeByte x s)
    else .next (storeByte x s)
  else .fault .offsetOutsideFrame

/-- Event `T`: no first byte gives Empty (R193), in mid-frame the bytes read so far are the frame (R197). -/
def timedOut (s : State) : Host.Outcome State Fault Refusal :=
  match s.phase with
  | .idle => .refused .noReadInProgress
  | .first => .next (deliverResult .empty { s with phase := .idle })
  | .rest => presentFrame s.cnt.toNat s

/-- Event `E`: the reader gives up, the stored bytes are dropped (R198); the event takes none from the stream (log 13). -/
def readFailed (s : State) : Host.Outcome State Fault Refusal :=
  match s.phase with
  | .idle => .refused .noReadInProgress
  | .first => .next (deliverResult .transportError (endRead s))
  | .rest => .next (deliverResult .transportError (endRead s))

/-- A byte reaches the Transport's receive stream, behind those that wait (R51, R63). -/
def byteArrives (x : Byte) (s : State) : Host.Outcome State Fault Refusal :=
  .next { s with rx := s.rx ++ [x] }

/-- `resetInputBuffer()`: all bytes waiting are dropped (R65); not while an `RDF` runs (R64). -/
def resetInput (s : State) : Host.Outcome State Fault Refusal :=
  match s.phase with
  | .idle => .next { s with rx := [] }
  | .first => .refused .resetDuringRead
  | .rest => .refused .resetDuringRead

end Sys2Proof.Machine
end

