-- ==== Sys2Proof/Machine/Command.lean ====
section
/-! DEFINITION. The meanings of the command kinds and the live event: ACTION_REQ, ACTION_RESP, EEPROM_REQ, EEPROM_RESP, LIVE_EVENT. -/
namespace Sys2Proof.Machine

/-- ENC R148, DEC R171. -/
def execActionReq (action argument sourceId userId34 userId35 : Byte) (s : State) : Host.Outcome State Fault Refusal :=
  codec (layoutActionReq action argument sourceId userId34 userId35) (.actionReq action argument sourceId userId34 userId35) s

/-- ENC R149, DEC R172. -/
def execActionResp (cmdLo : Nibble) (userId : Byte) (s : State) : Host.Outcome State Fault Refusal :=
  codec (layoutActionResp cmdLo userId) (.actionResp (commandOf 0x40 cmdLo) cmdLo userId) s

/-- ENC R150, DEC R173. -/
def execEepromReq (address : Half) (records sourceId userId34 userId35 : Byte) (s : State) :
    Host.Outcome State Fault Refusal :=
  codec (layoutEepromReq address records sourceId userId34 userId35) (.eepromReq address records sourceId userId34 userId35) s

/-- ENC R151, DEC R174. -/
def execEepromResp (cmdLo : Nibble) (address : Half) (records : Byte) (data : Bytes 27) (s : State) :
    Host.Outcome State Fault Refusal :=
  codec (layoutEepromResp cmdLo address records data) (.eepromResp (commandOf 0x50 cmdLo) cmdLo address records data) s

/-- ENC R152, DEC R175 with `label_len` of R176. -/
def execLiveEvent (cmdLo : Nibble) (eventGroup event1 event2 partition : Byte) (moduleSerial : Bytes 4)
    (labelType : Byte) (label : Bytes 16) (userId : Byte) (s : State) : Host.Outcome State Fault Refusal :=
  codec (layoutLiveEvent cmdLo eventGroup event1 event2 partition moduleSerial labelType label userId)
    (.liveEvent (commandOf 0xE0 cmdLo) cmdLo eventGroup event1 event2 partition moduleSerial labelType label
      (labelLen label) userId) s

end Sys2Proof.Machine
end

