-- ==== Sys2Proof/Machine/Handshake.lean ====
section
/-! DEFINITION. The meanings of the handshake and authentication kinds: INITIATE_REQ, INITIATE_RESP, INITIALIZE_REQ, INITIALIZE_OK, INITIALIZE_FAIL. -/
namespace Sys2Proof.Machine

/-- ENC R143, DEC R166. -/
def execInitiateReq (userId : Byte) (s : State) : Host.Outcome State Fault Refusal :=
  codec (layoutInitiateReq userId) (.initiateReq userId) s

/-- ENC R144 (which takes no input for `result`), DEC R167 (which reports `result` as found). -/
def execInitiateResp (result productId fwVer fwRev fwMinor : Byte) (panelId : Half) (pcPassword : Bytes 2)
    (sourceId userId : Byte) (s : State) : Host.Outcome State Fault Refusal :=
  codec (layoutInitiateResp productId fwVer fwRev fwMinor panelId pcPassword sourceId userId)
    (.initiateResp result productId fwVer fwRev fwMinor panelId pcPassword sourceId userId) s

/-- ENC R145 (which takes no input for `user_id`), DEC R168 (which reports `user_id` as found). -/
def execInitializeReq (productId fwVer fwRev fwMinor : Byte) (panelId : Half) (pcPassword : Bytes 2)
    (sourceId userId : Byte) (s : State) : Host.Outcome State Fault Refusal :=
  codec (layoutInitializeReq productId fwVer fwRev fwMinor panelId pcPassword sourceId)
    (.initializeReq productId fwVer fwRev fwMinor panelId pcPassword sourceId userId) s

/-- ENC R146, DEC R169. -/
def execInitializeOk (userId : Byte) (s : State) : Host.Outcome State Fault Refusal :=
  codec (layoutInitializeOk userId) (.initializeOk userId) s

/-- ENC R147, DEC R170. -/
def execInitializeFail (userId : Byte) (s : State) : Host.Outcome State Fault Refusal :=
  codec (layoutInitializeFail userId) (.initializeFail userId) s

end Sys2Proof.Machine
end

