-- ==== Sys2Proof/Machine/Reader.lean ====
section
/-! DEFINITION. The meanings of the first-byte classes LEN_IMPLICIT, LEN_EXPLICIT, LEN_CLAMPED: R192 with the frame length the class's rows give (R98, R113). -/
namespace Sys2Proof.Machine

/-- A first byte 0 to 4: the reader aims for 37 bytes. -/
def execLenImplicit (b0 : Byte) (s : State) : Host.Outcome State Fault Refusal :=
  firstByte b0 (BitVec.ofNat 6 Config.frameBytes) s

/-- A first byte 5 to 36: the reader aims for as many bytes as the byte says. -/
def execLenExplicit (b0 : Byte) (s : State) : Host.Outcome State Fault Refusal :=
  firstByte b0 (b0.setWidth 6) s

/-- A first byte 37 to 255: the reader aims for 37 bytes. -/
def execLenClamped (b0 : Byte) (s : State) : Host.Outcome State Fault Refusal :=
  firstByte b0 (BitVec.ofNat 6 Config.maxLength) s

end Sys2Proof.Machine
end

