-- ==== Sys2Proof/Machine/Dispatch.lean ====
section
/-! DEFINITION. One arm per instruction: the call of its meaning. -/
namespace Sys2Proof.Machine

def exec (i : Instr) (s : State) : Host.Outcome State Fault Refusal :=
  match i with
  | .initiateReq u => Sys2Proof.Machine.execInitiateReq u s
  | .initiateResp res p v r m n w src u => Sys2Proof.Machine.execInitiateResp res p v r m n w src u s
  | .initializeReq p v r m n w src u => Sys2Proof.Machine.execInitializeReq p v r m n w src u s
  | .initializeOk u => Sys2Proof.Machine.execInitializeOk u s
  | .initializeFail u => Sys2Proof.Machine.execInitializeFail u s
  | .actionReq a g src u34 u35 => Sys2Proof.Machine.execActionReq a g src u34 u35 s
  | .actionResp lo u => Sys2Proof.Machine.execActionResp lo u s
  | .eepromReq a r src u34 u35 => Sys2Proof.Machine.execEepromReq a r src u34 u35 s
  | .eepromResp lo a r d => Sys2Proof.Machine.execEepromResp lo a r d s
  | .liveEvent lo g e1 e2 p ms t l u => Sys2Proof.Machine.execLiveEvent lo g e1 e2 p ms t l u s
  | .lenImplicit b => Sys2Proof.Machine.execLenImplicit b s
  | .lenExplicit b => Sys2Proof.Machine.execLenExplicit b s
  | .lenClamped b => Sys2Proof.Machine.execLenClamped b s

end Sys2Proof.Machine
end

