-- ==== Sys2Proof/Machine/Ports.lean ====
section
/-! DEFINITION. What each input of the host or the environment makes the block do: the operations `CHK`, `ENC`, `DEC`, `RDF` at their ports, and the Transport's events. -/
namespace Sys2Proof.Machine

/-- `CHK b, k` (R130); the port holds at most 37 bytes, and `k ≤ |b|` (R57). -/
def driveChk (b : List Byte) (k : Nat) (s : State) : Host.Outcome State Fault Refusal :=
  if b.length > Config.frameBytes then .refused .bufferTooLong
  else if k > b.length then .refused .countBeyondBuffer
  else .next (deliverResult (.checksum (chk b k)) s)

/-- `ENC.<KIND> fields` (R140): the message is executed at the encoder's port. -/
def driveEnc (i : Instr) (s : State) : Host.Outcome State Fault Refusal :=
  if i.isMessage then exec i { s with port := .encoder } else .refused .notAMessageKind

/-- `DEC dir, b` (R160): the buffer is decoded, and the message executed at the decoder's port or the error raised. -/
def driveDec (dir : Direction) (b : List Byte) (s : State) : Host.Outcome State Fault Refusal :=
  if b.length > Config.frameBytes then .refused .bufferTooLong
  else
    match decode dir b with
    | .ok i => exec i { s with port := .decoder }
    | .err e => raise e { s with port := .decoder }

/-- Event `B` (R190): the byte at the front of the receive stream goes to the reader. In phase First it is decoded to its
length class and that instruction executed (R192, R194); in phase Rest it is stored (R195). -/
def deliverByte (s : State) : Host.Outcome State Fault Refusal :=
  match s.phase, s.rx with
  | .idle, _ => .refused .noReadInProgress
  | .first, [] => .refused .noByteWaiting
  | .rest, [] => .refused .noByteWaiting
  | .first, x :: r => exec (decodeFirstByte x) { s with rx := r }
  | .rest, x :: r => furtherByte x { s with rx := r }

/-- One input. -/
def runInput (i : Input) (s : State) : Host.Outcome State Fault Refusal :=
  match i with
  | .chk b k => driveChk b k s
  | .enc m => driveEnc m s
  | .dec dir b => driveDec dir b s
  | .rdf => startRead s
  | .resetInput => resetInput s
  | .arrive x => byteArrives x s
  | .deliver => deliverByte s
  | .timeout => timedOut s
  | .ioError => readFailed s

/-- The step's beginning: the input is taken, and a status handed over earlier is not kept (R26). -/
def takeInput (rest : List Input) (s : State) : State := { s with inputs := rest, result := none }

/-- With no input the block and the Transport wait (R227, R240). -/
def wait (s : State) : State := { s with result := none }

/-- One step: the next input of the host or the environment is taken and run. -/
def stepInput (s : State) : Host.Outcome State Fault Refusal :=
  match s.inputs with
  | [] => .next (wait s)
  | i :: rest => runInput i (takeInput rest s)

/-- A table word placed so that the next step runs its instruction: a buffer at the decoder's port, or a byte at the front
of the receive stream, delivered to a reader that waits for a first byte. -/
def placeTableWord (s : State) (t : TableWord) : State :=
  match t with
  | .buffer dir b => { s with inputs := .dec dir b :: s.inputs }
  | .firstByte x => { s with phase := .first, cnt := 0, rx := x :: s.rx, inputs := .deliver :: s.inputs }

end Sys2Proof.Machine
end

