-- ==== Sys2Proof/Machine/Step.lean ====
section
/-! DEFINITION. The step and the host's placing of a table word. -/
namespace Sys2Proof.Machine

/-- One step of the machine. -/
def step (s : State) : Host.Outcome State Fault Refusal := stepInput s

/-- The state with a table word placed where the next step takes its instruction. -/
def State.withFetchWord (s : State) (nbits w : Nat) : State := placeTableWord s (tableWord nbits w)

end Sys2Proof.Machine
end

