-- ==== Sys2Proof/Machine/Flags.lean ====
section
/-! DEFINITION. The block has no condition codes and no sticky flags (R26): a status is part of a result. Here are the numeric codes of the statuses (R210). -/
namespace Sys2Proof.Machine

/-- The code of a decode error (R210). -/
def decodeErrorCode : DecodeError → Nat
  | .tooShort => 1
  | .unknownCommand => 2
  | .checksumMismatch => 3

/-- The status code of a result (R210); `CHK` and `ENC` cannot fail and have none. -/
def statusCode : Result → Option Nat
  | .checksum _ => none
  | .encoded _ => none
  | .decoded _ => some 0
  | .decodeError e => some (decodeErrorCode e)
  | .frame _ => some 0
  | .empty => some 1
  | .transportError => some 2

end Sys2Proof.Machine
end

