-- ==== Sys2Proof/Machine/HostView.lean ====
section
/-! DEFINITION. The host's conventions the spec gives beside the block (R100, R110 to R112, R181): action codes, password packing, the six pseudo-operations, and what the surrounding software keeps of a message. The step does not use them. -/
namespace Sys2Proof.Machine

/-- The named actions of ACTION_REQ (R100); `bypass` and `clear_bypass` are one code. -/
inductive ActionName where
  | armStay
  | armSleep
  | arm
  | disarm
  | armStayInstant
  | armInstant
  | bypass
  | clearBypass
  | on
  | off
  | onOverride
  | offOverride
deriving DecidableEq, Repr

/-- The action codes (R100). -/
def ActionName.code : ActionName → Byte
  | .armStay => 0x01
  | .armSleep => 0x02
  | .arm => 0x04
  | .disarm => 0x05
  | .armStayInstant => 0x06
  | .armInstant => 0x07
  | .bypass => 0x10
  | .clearBypass => 0x10
  | .on => 0x32
  | .off => 0x33
  | .onOverride => 0x34
  | .offOverride => 0x35

/-- The modes `arm(partition, mode)` allows (R110). -/
def ActionName.isArmMode : ActionName → Bool
  | .armStay => true
  | .armSleep => true
  | .arm => true
  | .disarm => false
  | .armStayInstant => true
  | .armInstant => true
  | .bypass => false
  | .clearBypass => false
  | .on => false
  | .off => false
  | .onOverride => false
  | .offOverride => false

/-- `h(c)`, the value of a hex digit (R111); upper and lower case alike. -/
def hexDigit (c : Char) : Option Nat :=
  if '0'.toNat ≤ c.toNat ∧ c.toNat ≤ '9'.toNat then some (c.toNat - '0'.toNat)
  else if 'a'.toNat ≤ c.toNat ∧ c.toNat ≤ 'f'.toNat then some (c.toNat - 'a'.toNat + 10)
  else if 'A'.toNat ≤ c.toNat ∧ c.toNat ≤ 'F'.toNat then some (c.toNat - 'A'.toNat + 10)
  else none

/-- Two hex digits in one byte, the first in the high nibble (R111). -/
def packPair (hi lo : Char) : Option Byte :=
  match hexDigit hi, hexDigit lo with
  | some a, some b => some (BitVec.ofNat 8 (a * 16 + b))
  | _, _ => none

/-- The packed PC password; none is `InvalidPassword`, and nothing is sent (R111). -/
def packPassword (pw : List Char) : Option (Bytes 2) :=
  match pw with
  | [c0, c1, c2, c3] =>
    match packPair c0 c1, packPair c2 c3 with
    | some a, some b => some ⟨[a, b], rfl⟩
    | _, _ => none
  | _ => none

/-- PanelIdentity (R181). -/
structure PanelIdentity where
  productId : Byte
  fwVer : Byte
  fwRev : Byte
  fwMinor : Byte
  panelId : Half
  pcPassword : Bytes 2
  sourceId : Byte
deriving DecidableEq, Repr

/-- What the Session keeps of an INITIATE_RESP; `result` and `user_id` are dropped (R181). -/
def panelIdentity : Message → Option PanelIdentity
  | .initiateResp _ p v r m n w src _ => some ⟨p, v, r, m, n, w, src⟩
  | _ => none

/-- EventRecord (R181). -/
structure EventRecord where
  command : Byte
  eventGroup : Byte
  event1 : Byte
  event2 : Byte
  partition : Byte
  labelType : Byte
  label : List Byte
deriving DecidableEq, Repr

/-- What is kept of a LIVE_EVENT: `label[0..label_len)` is the text, `module_serial` and `user_id` are dropped (R181). -/
def eventRecord : Message → Option EventRecord
  | .liveEvent c _ g e1 e2 p _ t l n _ => some ⟨c, g, e1, e2, p, t, l.val.take n⟩
  | _ => none

/-- The classes of an unsuccessful action answer (R112). -/
inductive ActionClass where
  | fail
  | invalidArgument
  | userCodeRequired
  | unknown
deriving DecidableEq, Repr

/-- CommandResult (R112, R181): success, or a failure of a class. -/
inductive CommandResult where
  | success
  | failure (c : ActionClass)
deriving DecidableEq, Repr

/-- Result success if and only if the command byte is 0x40; the classes are the open table `ACTION_CLASS`, an argument (R6,
R112). -/
def commandResult (actionClass : Byte → ActionClass) : Message → Option CommandResult
  | .actionResp c _ _ => some (if c = 0x40 then .success else .failure (actionClass c))
  | _ => none

/-- The six calls of the surrounding software (R110). -/
inductive PseudoOp where
  | identify
  | authenticate (identity : PanelIdentity) (pw : List Char)
  | arm (partition : Nat) (mode : ActionName)
  | disarm (partition : Nat)
  | bypassZone (zone : Nat)
  | readMemory (address recordCount : Nat)
deriving DecidableEq, Repr

/-- An action command: the 0-indexed argument, the source identifier, user id 0 (R110). -/
def actionCommand (srcPcApp : Byte) (a : ActionName) (index : Nat) : Instr :=
  .actionReq a.code (BitVec.ofNat 8 (index - 1)) srcPcApp 0 0

/-- The message a pseudo-operation has the encoder build, with `SRC_PC_APP` as an argument (R6); none where the caller's own
check of its arguments fails and nothing is sent. The Session's state is not looked at (R4). (R110) -/
def PseudoOp.expand (srcPcApp : Byte) : PseudoOp → Option Instr
  | .identify => some (.initiateReq 0)
  | .authenticate d pw =>
    (packPassword pw).map fun w => .initializeReq d.productId d.fwVer d.fwRev d.fwMinor d.panelId w srcPcApp 0
  | .arm partition mode =>
    if 1 ≤ partition ∧ partition ≤ 8 ∧ mode.isArmMode then some (actionCommand srcPcApp mode partition) else none
  | .disarm partition =>
    if 1 ≤ partition ∧ partition ≤ 8 then some (actionCommand srcPcApp .disarm partition) else none
  | .bypassZone zone =>
    if 1 ≤ zone ∧ zone ≤ 192 then some (actionCommand srcPcApp .bypass zone) else none
  | .readMemory address recordCount =>
    if address ≤ 65535 ∧ 1 ≤ recordCount ∧ recordCount ≤ 32 then
      some (.eepromReq (BitVec.ofNat 16 address) (BitVec.ofNat 8 recordCount) srcPcApp 0 0)
    else none

end Sys2Proof.Machine
end

