-- ==== Sys2Proof/Machine/ReaderFn.lean ====
section
/-! DEFINITION. `RDF` as one function of the Transport's two read answers (R199), and the events each answer stands for (R190). -/
namespace Sys2Proof.Machine

/-- The Transport's answer to `TrRead(m)` (R190): `k` bytes from the front of the stream, or an I/O failure after `k` bytes,
which are lost, and these alone (log 13). -/
inductive ReadAnswer where
  | bytes (k : Nat)
  | fails (k : Nat)
deriving DecidableEq, Repr

/-- The answer fits a read of at most `m` bytes: at most `m` bytes come. A read that fails after all `m` is left out: by its
events it is a read that has its bytes (R190; log 13). -/
def ReadAnswer.fits (m : Nat) : ReadAnswer → Bool
  | .bytes k => decide (k ≤ m)
  | .fails k => decide (k < m)

/-- How many bytes the answer takes from the stream. -/
def ReadAnswer.taken : ReadAnswer → Nat
  | .bytes k => k
  | .fails k => k

/-- The events of an answer to `TrRead(m)`: `k` events `B`, then `T` if fewer than `m` came, or `E` on failure (R190). -/
def ReadAnswer.events (m : Nat) : ReadAnswer → List Input
  | .bytes k => List.replicate k .deliver ++ (if k < m then [.timeout] else [])
  | .fails k => List.replicate k .deliver ++ [.ioError]

/-- `RDF()` of R199 on a stream that holds `rx`, with the answers `a1` to `TrRead(1)` and `a2` to `TrRead(len - 1)`: the
result, and what is left in the stream. `a2` is looked at only if the first read returned a byte. -/
def readFrame (rx : List Byte) (a1 a2 : ReadAnswer) : Result × List Byte :=
  match a1, rx with
  | .fails k, _ => (.transportError, rx.drop k)
  | .bytes 0, _ => (.empty, rx)
  | .bytes (_ + 1), [] => (.empty, [])
  | .bytes (_ + 1), x :: r =>
    match a2 with
    | .fails k => (.transportError, r.drop k)
    | .bytes k => (.frame (x :: r.take k), r.drop k)

/-- The length the reader aims for on a stream that holds `rx`: `FrameLen` of its first byte (R194, R199). -/
def aimedLength (rx : List Byte) : Nat := (frameLen (rx.headD 0)).toNat

/-- The inputs of one whole `RDF`: the start, the events of the first read, and those of the second if the first returned
its byte (R190, R199). -/
def readInputs (rx : List Byte) (a1 a2 : ReadAnswer) : List Input :=
  .rdf :: (a1.events 1 ++ if a1 = .bytes 1 then a2.events (aimedLength rx - 1) else [])

/-- How many bytes one whole `RDF` asks of the stream. -/
def readTaken (a1 a2 : ReadAnswer) : Nat :=
  if a1 = .bytes 1 then 1 + a2.taken else a1.taken

end Sys2Proof.Machine
end

