-- ==== Sys2Proof/Safety.lean ====
section
/-! DEFINITION. What claims are made of: the invariant of the reader's registers, the states a host cannot tell apart, the events of a read in progress, and the fairness of the environment. -/
namespace Sys2Proof

/-- `00*n`, `n` zero bytes (R105). -/
def zeros (n : Nat) : List Byte := List.replicate n 0x00

/-- The 36 bytes at offsets 0 to 35 with the checksum behind them at offset 36 (R80, R132). -/
def withChecksum (payload : List Byte) : List Byte := payload ++ [chk payload 36]

/-- The first byte of a buffer names no layout in the direction: the lists of R94, written out. -/
def unknownCommand (dir : Direction) (cmd : Byte) : Prop :=
  match dir with
  | .request => cmd ≠ 0x00 ∧ cmd ≠ 0x40 ∧ cmd ≠ 0x50 ∧ cmd ≠ 0x72
  | .response => cmd ≠ 0x10 ∧ ¬(0x40 ≤ cmd.toNat ∧ cmd.toNat ≤ 0x5F) ∧ cmd ≠ 0x70 ∧ cmd ≠ 0x72 ∧
      ¬(0xE0 ≤ cmd.toNat ∧ cmd.toNat ≤ 0xEF)

end Sys2Proof

namespace Sys2Proof.Machine

/-- R25 with the canonical form of `rbuf`: in Idle and First `cnt = 0`; in Rest `1 ≤ cnt < len`, `5 ≤ len ≤ 37`, and `len` is
`FrameLen` of the first byte received, which is `rbuf[0]`. -/
def State.Inv (s : State) : Prop :=
  s.rbuf.wf = true ∧
  match s.phase with
  | .idle => s.cnt = 0
  | .first => s.cnt = 0
  | .rest => 1 ≤ s.cnt.toNat ∧ s.cnt.toNat < s.len.toNat ∧ 5 ≤ s.len.toNat ∧ s.len.toNat ≤ 37 ∧
      s.len = frameLen (s.rbuf.read 0)

/-- Two states that differ at most in what R32 calls not observable: `len` outside phase Rest, `rbuf[i]` for `i ≥ cnt`; and in
the model's own field `port`, which is written before it is read. -/
def State.Alike (s t : State) : Prop :=
  s.phase = t.phase ∧ s.cnt = t.cnt ∧ (s.phase = .rest → s.len = t.len) ∧
  (∀ i, i < s.cnt.toNat → s.rbuf.read i = t.rbuf.read i) ∧
  s.rx = t.rx ∧ s.inputs = t.inputs ∧ s.result = t.result

/-- Two outcomes a host cannot tell apart. -/
def OutcomeAlike : Host.Outcome State Fault Refusal → Host.Outcome State Fault Refusal → Prop
  | .next s, .next t => s.Alike t
  | .fault a, .fault b => a = b
  | .refused a, .refused b => a = b
  | _, _ => False

/-- The events the Transport gives a read in progress: `B`, `T`, `E` (R190). -/
def Input.isReaderEvent : Input → Bool
  | .deliver => true
  | .timeout => true
  | .ioError => true
  | .chk _ _ => false
  | .enc _ => false
  | .dec _ _ => false
  | .rdf => false
  | .resetInput => false
  | .arrive _ => false

/-- The operations of the codec, which hold no state (R20). -/
def Input.isCodec : Input → Bool
  | .chk _ _ => true
  | .enc _ => true
  | .dec _ _ => true
  | .rdf => false
  | .resetInput => false
  | .arrive _ => false
  | .deliver => false
  | .timeout => false
  | .ioError => false

/-! ## The environment over time (R205, U21, log 23) -/

/-- What the host and the environment do at each time: one input, or nothing, and then the machine waits. -/
abbrev Schedule := Nat → Option Input

/-- The state with the input of one time as all that comes next. -/
def State.given (s : State) (i : Option Input) : State := { s with inputs := i.toList }

/-- The state at a time, from `s` at time 0; none from the first fault or refusal on. -/
def Schedule.stateAt (env : Schedule) (s : State) : Nat → Option State
  | 0 => some s
  | n + 1 =>
    match env.stateAt s n with
    | none => none
    | some t =>
      match step (t.given (env n)) with
      | .next u => some u
      | .fault _ => none
      | .refused _ => none

/-- Every step of the run has a rule: the host keeps its duties (R229), and events come only where R190 gives them. -/
def Schedule.Lawful (env : Schedule) (s : State) : Prop := ∀ n, env.stateAt s n ≠ none

/-- The fairness assumption on the environment: "a reader that is not `Idle` eventually receives an event" (R205, U21). -/
def Schedule.Fair (env : Schedule) (s : State) : Prop :=
  ∀ n t, env.stateAt s n = some t → t.phase ≠ .idle → ∃ m e, n ≤ m ∧ env m = some e ∧ e.isReaderEvent = true

/-- How many inputs of a sort come before a time. -/
def Schedule.count (env : Schedule) (p : Input → Bool) : Nat → Nat
  | 0 => 0
  | n + 1 => env.count p n + if (env n).any p then 1 else 0

/-- Event `T` or event `E`. -/
def Input.isTimeoutOrError : Input → Bool
  | .timeout => true
  | .ioError => true
  | .deliver => false
  | .chk _ _ => false
  | .enc _ => false
  | .dec _ _ => false
  | .rdf => false
  | .resetInput => false
  | .arrive _ => false

end Sys2Proof.Machine
end

