-- ==== Sys2Proof/Certificates/Slice0/Obligations.lean ====
section
/-! DEFINITION. The statements for the provers. -/

open Sys2Proof Sys2Proof.Machine

/-! ## Encoding and decoding as a whole -/

/-- R179, first half, at the decoder: for every message kind and every value of its operands, the decoder in the kind's
direction gives the encoded message back. -/
def Obligations.DecodeOfEncodeIsTheMessage : Prop :=
  ∀ (i : Instr) (k : Kind), i.kind = some k → i.WellFormed = true → decode k.dir (encode i) = .ok i

/-- R179, second half: the message a buffer decodes to is encoded as that buffer exactly when every byte its layout does not
declare is zero and the fixed byte of the kinds that have one is right. -/
def Obligations.EncodeOfDecodeUpToReservedBytes : Prop :=
  ∀ (dir : Direction) (b : List Byte) (i : Instr) (k : Kind), decode dir b = .ok i → i.kind = some k →
    (encode i = b ↔
      (∀ off, k.reserved off = true → byteAt b off = 0x00) ∧
      (k = .initiateResp → byteAt b 1 = 0xFF) ∧ (k = .initializeReq → byteAt b 13 = 0x00))

/-- R142 (a), (b), (c): every encoded frame is 37 bytes, ends in the checksum of its first 36 bytes, has every reserved byte
zero, and its command byte selects its own kind. -/
def Obligations.EncodedFramesAreSealedAndReservedZero : Prop :=
  ∀ (i : Instr) (k : Kind), i.kind = some k →
    (encode i).length = 37 ∧ byteAt (encode i) 36 = chk (encode i) 36 ∧
    (∀ off, k.reserved off = true → byteAt (encode i) off = 0x00) ∧ select k.dir (byteAt (encode i) 0) = some k

/-- R82: a byte selects the kind of a row when `cmd & mask = match` and the direction is the row's, and nothing else selects
it. -/
def Obligations.SelectionIsTheDispatchTable : Prop :=
  ∀ (dir : Direction) (cmd : Byte) (k : Kind),
    select dir cmd = some k ↔ ∃ row ∈ kindRows, row.kind = k ∧ row.dir = dir ∧ cmd &&& row.mask = row.matchBits

/-- Frames written out byte by byte from the layouts of R83, R84, R88, R92 decode to their messages. -/
def Obligations.SpecWordsDecodeToTheirMessages : Prop :=
  decode .request ([0x72] ++ zeros 35 ++ [0x72]) = .ok (.initiateReq 0x00) ∧
  decode .response ([0x72, 0xFF, 0, 0, 0, 0, 0x04, 0x04, 0x02, 0x01, 0x04, 0xD2] ++ zeros 24 ++ [0x52]) =
    .ok (.initiateResp 0xFF 4 4 2 1 1234 ⟨[0, 0], rfl⟩ 0 0) ∧
  decode .request ([0x40, 0, 0, 0, 0x01, 0x02] ++ zeros 30 ++ [0x43]) = .ok (.actionReq 1 2 0 0 0) ∧
  decode .response ([0xE1, 0, 0, 0, 0, 0x02, 0, 0, 0, 0, 0, 0x46, 0x72, 0x6F, 0x6E, 0x74, 0x20, 0x44, 0x6F, 0x6F, 0x72] ++
      zeros 15 ++ [0xA0]) =
    .ok (.liveEvent 1 0 0 0 2 ⟨[0, 0, 0, 0], rfl⟩ 0
      ⟨[0x46, 0x72, 0x6F, 0x6E, 0x74, 0x20, 0x44, 0x6F, 0x6F, 0x72, 0, 0, 0, 0, 0, 0], rfl⟩ 0)

/-- R98: a first byte 0 to 4 decodes to LEN_IMPLICIT, 5 to 36 to LEN_EXPLICIT, 37 to 255 to LEN_CLAMPED, and to no other; and the
one byte a well-formed first-byte instruction is encoded as decodes to that instruction. -/
def Obligations.FirstByteDecodesToItsClass : Prop :=
  ∀ x : Byte,
    (decodeFirstByte x = .lenImplicit x ↔ x.toNat ≤ 4) ∧
    (decodeFirstByte x = .lenExplicit x ↔ 5 ≤ x.toNat ∧ x.toNat ≤ 36) ∧
    (decodeFirstByte x = .lenClamped x ↔ 37 ≤ x.toNat) ∧
    (∀ i : Instr, i.isMessage = false → i.WellFormed = true → encode i = [x] → decodeFirstByte x = i)

/-! ## A step runs the instruction -/

/-- The host drives `DEC dir, b`: if the buffer decodes to a message, the step is that message's meaning at the decoder's
port, with the input taken and no status kept. -/
def Obligations.StepRunsTheDecodedMessage : Prop :=
  ∀ (s : State) (dir : Direction) (b : List Byte) (rest : List Input) (i : Instr),
    s.inputs = .dec dir b :: rest → decode dir b = .ok i →
    step s = exec i { s with inputs := rest, result := none, port := .decoder }

/-- The host drives `ENC` of a message: the step is that message's meaning at the encoder's port. -/
def Obligations.StepRunsTheEncodersMessage : Prop :=
  ∀ (s : State) (i : Instr) (rest : List Input), s.inputs = .enc i :: rest → i.isMessage = true →
    step s = exec i { s with inputs := rest, result := none, port := .encoder }

/-- A byte is delivered to a reader that waits for a first byte: the step is the meaning of the byte's length class, with the
byte taken from the stream. -/
def Obligations.StepRunsTheFirstByteInstruction : Prop :=
  ∀ (s : State) (x : Byte) (r : List Byte) (rest : List Input),
    s.inputs = .deliver :: rest → s.phase = .first → s.rx = x :: r →
    step s = exec (decodeFirstByte x) { s with inputs := rest, result := none, rx := r }

/-- A table word placed by `withFetchWord` is run by the very next step (the placing is the model's choice, log 14, 15). -/
def Obligations.StepRunsThePlacedTableWord : Prop :=
  ∀ (s : State) (nbits w : Nat) (i : Instr), decodeTableWord nbits w = some i →
    step (s.withFetchWord nbits w) =
      exec i (if i.isMessage = true then { s with result := none, port := .decoder }
        else { s with result := none, phase := .first, cnt := 0 })

/-! ## The encoder -/

/-- R143. -/
def Obligations.EncInitiateReqBuildsItsFrame : Prop :=
  ∀ (u : Byte) (s : State), s.port = .encoder →
    exec (.initiateReq u) s =
      .next { s with result := some (.encoded (withChecksum ([0x72] ++ zeros 34 ++ [u]))) }

/-- R144: the constant 0xFF at offset 1; the encoder takes no input for `result`, and ignores what the term carries there
(log 16). -/
def Obligations.EncInitiateRespBuildsItsFrame : Prop :=
  ∀ (res p v r m : Byte) (n : Half) (w : Bytes 2) (src u : Byte) (s : State), s.port = .encoder →
    exec (.initiateResp res p v r m n w src u) s =
      .next { s with result := some (.encoded (withChecksum
        ([0x72, 0xFF] ++ zeros 4 ++ [p, v, r, m, BitVec.ofNat 8 (n.toNat / 256), BitVec.ofNat 8 (n.toNat % 256)] ++ w.val ++
          zeros 13 ++ [src, u] ++ zeros 7))) }

/-- R145: offset 13 stays zero; the encoder takes no input for `user_id`, and ignores what the term carries there (log 16). -/
def Obligations.EncInitializeReqBuildsItsFrame : Prop :=
  ∀ (p v r m : Byte) (n : Half) (w : Bytes 2) (src u : Byte) (s : State), s.port = .encoder →
    exec (.initializeReq p v r m n w src u) s =
      .next { s with result := some (.encoded (withChecksum
        ([0x00, p, v, r, m, BitVec.ofNat 8 (n.toNat / 256), BitVec.ofNat 8 (n.toNat % 256)] ++ w.val ++ zeros 3 ++ [src] ++
          zeros 23))) }

/-- R146, R147. -/
def Obligations.EncInitializeAnswersBuildTheirFrames : Prop :=
  ∀ (u : Byte) (s : State), s.port = .encoder →
    exec (.initializeOk u) s =
      .next { s with result := some (.encoded (withChecksum ([0x10] ++ zeros 34 ++ [u]))) } ∧
    exec (.initializeFail u) s =
      .next { s with result := some (.encoded (withChecksum ([0x70] ++ zeros 34 ++ [u]))) }

/-- R148: no operand is checked against a table or a range. -/
def Obligations.EncActionReqBuildsItsFrame : Prop :=
  ∀ (a g src u34 u35 : Byte) (s : State), s.port = .encoder →
    exec (.actionReq a g src u34 u35) s =
      .next { s with result := some (.encoded (withChecksum
        ([0x40] ++ zeros 3 ++ [a, g] ++ zeros 27 ++ [src, u34, u35]))) }

/-- R149: the command byte is `0x40 | cmd_lo`, which is 0x40 plus `cmd_lo`. -/
def Obligations.EncActionRespBuildsItsFrame : Prop :=
  ∀ (lo : Nibble) (u : Byte) (s : State), s.port = .encoder →
    exec (.actionResp lo u) s =
      .next { s with result := some (.encoded (withChecksum ([BitVec.ofNat 8 (0x40 + lo.toNat)] ++ zeros 34 ++ [u]))) }

/-- R150. -/
def Obligations.EncEepromReqBuildsItsFrame : Prop :=
  ∀ (a : Half) (r src u34 u35 : Byte) (s : State), s.port = .encoder →
    exec (.eepromReq a r src u34 u35) s =
      .next { s with result := some (.encoded (withChecksum
        ([0x50, 0x00, BitVec.ofNat 8 (a.toNat / 256), BitVec.ofNat 8 (a.toNat % 256), r] ++ zeros 28 ++ [src, u34, u35]))) }

/-- R151: `data` fills offsets 5 to 31 whatever `records` is. -/
def Obligations.EncEepromRespBuildsItsFrame : Prop :=
  ∀ (lo : Nibble) (a : Half) (r : Byte) (d : Bytes 27) (s : State), s.port = .encoder →
    exec (.eepromResp lo a r d) s =
      .next { s with result := some (.encoded (withChecksum
        ([BitVec.ofNat 8 (0x50 + lo.toNat), 0x00, BitVec.ofNat 8 (a.toNat / 256), BitVec.ofNat 8 (a.toNat % 256), r] ++ d.val ++
          zeros 4))) }

/-- R152. -/
def Obligations.EncLiveEventBuildsItsFrame : Prop :=
  ∀ (lo : Nibble) (g e1 e2 p : Byte) (ms : Bytes 4) (t : Byte) (l : Bytes 16) (u : Byte) (s : State), s.port = .encoder →
    exec (.liveEvent lo g e1 e2 p ms t l u) s =
      .next { s with result := some (.encoded (withChecksum
        ([BitVec.ofNat 8 (0xE0 + lo.toNat), 0x00, g, e1, e2, p] ++ ms.val ++ [t] ++ l.val ++ zeros 7 ++ [u, 0x00]))) }

/-- The frame of the ten kinds: at either codec port each of them answers a next state that differs from the old one in the
result and nothing else. -/
def Obligations.MessagesWriteOnlyTheResult : Prop :=
  ∀ (i : Instr) (s : State), i.isMessage = true → ∃ r : Result, exec i s = .next { s with result := some r }

/-! ## The decoder -/

/-- R166. -/
def Obligations.DecExtractsInitiateReq : Prop :=
  ∀ (s : State) (b : List Byte) (rest : List Input), s.inputs = .dec .request b :: rest → b.length = 37 →
    byteAt b 36 = chk b 36 → byteAt b 0 = 0x72 →
    step s = .next { s with inputs := rest, port := .decoder, result := some (.decoded (.initiateReq (byteAt b 35))) }

/-- R167: `result` is returned as found. -/
def Obligations.DecExtractsInitiateResp : Prop :=
  ∀ (s : State) (b : List Byte) (rest : List Input), s.inputs = .dec .response b :: rest → b.length = 37 →
    byteAt b 36 = chk b 36 → byteAt b 0 = 0x72 →
    ∃ w : Bytes 2, w.val = (b.drop 12).take 2 ∧
      step s = .next { s with inputs := rest, port := .decoder, result := some (.decoded (.initiateResp (byteAt b 1) (byteAt b 6)
        (byteAt b 7) (byteAt b 8) (byteAt b 9) (BitVec.ofNat 16 ((byteAt b 10).toNat * 256 + (byteAt b 11).toNat)) w
        (byteAt b 27) (byteAt b 28))) }

/-- R168: `user_id` is returned as found. -/
def Obligations.DecExtractsInitializeReq : Prop :=
  ∀ (s : State) (b : List Byte) (rest : List Input), s.inputs = .dec .request b :: rest → b.length = 37 →
    byteAt b 36 = chk b 36 → byteAt b 0 = 0x00 →
    ∃ w : Bytes 2, w.val = (b.drop 7).take 2 ∧
      step s = .next { s with inputs := rest, port := .decoder, result := some (.decoded (.initializeReq (byteAt b 1) (byteAt b 2)
        (byteAt b 3) (byteAt b 4) (BitVec.ofNat 16 ((byteAt b 5).toNat * 256 + (byteAt b 6).toNat)) w
        (byteAt b 12) (byteAt b 13))) }

/-- R169, R170. -/
def Obligations.DecExtractsInitializeAnswers : Prop :=
  ∀ (s : State) (b : List Byte) (rest : List Input), s.inputs = .dec .response b :: rest → b.length = 37 →
    byteAt b 36 = chk b 36 →
    (byteAt b 0 = 0x10 → step s =
      .next { s with inputs := rest, port := .decoder, result := some (.decoded (.initializeOk (byteAt b 35))) }) ∧
    (byteAt b 0 = 0x70 → step s =
      .next { s with inputs := rest, port := .decoder, result := some (.decoded (.initializeFail (byteAt b 35))) })

/-- R171: `action` is not checked against the action tables. -/
def Obligations.DecExtractsActionReq : Prop :=
  ∀ (s : State) (b : List Byte) (rest : List Input), s.inputs = .dec .request b :: rest → b.length = 37 →
    byteAt b 36 = chk b 36 → byteAt b 0 = 0x40 →
    step s = .next { s with inputs := rest, port := .decoder, result := some (.decoded (.actionReq (byteAt b 4) (byteAt b 5)
      (byteAt b 33) (byteAt b 34) (byteAt b 35))) }

/-- R172: the command byte itself is reported, and its low nibble. -/
def Obligations.DecExtractsActionResp : Prop :=
  ∀ (s : State) (b : List Byte) (rest : List Input), s.inputs = .dec .response b :: rest → b.length = 37 →
    byteAt b 36 = chk b 36 → 0x40 ≤ (byteAt b 0).toNat → (byteAt b 0).toNat < 0x50 →
    step s = .next { s with inputs := rest, port := .decoder, result := some (.decoded (.actionResp (byteAt b 0)
      (BitVec.ofNat 4 (byteAt b 0).toNat) (byteAt b 35))) }

/-- R173: `records` is not checked. -/
def Obligations.DecExtractsEepromReq : Prop :=
  ∀ (s : State) (b : List Byte) (rest : List Input), s.inputs = .dec .request b :: rest → b.length = 37 →
    byteAt b 36 = chk b 36 → byteAt b 0 = 0x50 →
    step s = .next { s with inputs := rest, port := .decoder, result := some (.decoded (.eepromReq
      (BitVec.ofNat 16 ((byteAt b 2).toNat * 256 + (byteAt b 3).toNat)) (byteAt b 4) (byteAt b 33) (byteAt b 34)
      (byteAt b 35))) }

/-- R174: `data` is always the 27 bytes at offsets 5 to 31. -/
def Obligations.DecExtractsEepromResp : Prop :=
  ∀ (s : State) (b : List Byte) (rest : List Input), s.inputs = .dec .response b :: rest → b.length = 37 →
    byteAt b 36 = chk b 36 → 0x50 ≤ (byteAt b 0).toNat → (byteAt b 0).toNat < 0x60 →
    ∃ d : Bytes 27, d.val = (b.drop 5).take 27 ∧
      step s = .next { s with inputs := rest, port := .decoder, result := some (.decoded (.eepromResp (byteAt b 0)
        (BitVec.ofNat 4 (byteAt b 0).toNat) (BitVec.ofNat 16 ((byteAt b 2).toNat * 256 + (byteAt b 3).toNat))
        (byteAt b 4) d)) }

/-- R175, R176 (that the decoder gives the 16 raw bytes together with a length is the spec's decision D10): the label is the
16 bytes at offsets 11 to 26, and `label_len` is its length once trailing zero bytes are taken off. -/
def Obligations.DecExtractsLiveEvent : Prop :=
  ∀ (s : State) (b : List Byte) (rest : List Input), s.inputs = .dec .response b :: rest → b.length = 37 →
    byteAt b 36 = chk b 36 → 0xE0 ≤ (byteAt b 0).toNat → (byteAt b 0).toNat < 0xF0 →
    ∃ (ms : Bytes 4) (l : Bytes 16) (n : Nat), ms.val = (b.drop 6).take 4 ∧ l.val = (b.drop 11).take 16 ∧
      n ≤ 16 ∧ (∀ i, n ≤ i → i < 16 → byteAt b (11 + i) = 0x00) ∧ (0 < n → byteAt b (11 + (n - 1)) ≠ 0x00) ∧
      step s = .next { s with inputs := rest, port := .decoder, result := some (.decoded (.liveEvent (byteAt b 0)
        (BitVec.ofNat 4 (byteAt b 0).toNat) (byteAt b 2) (byteAt b 3) (byteAt b 4) (byteAt b 5) ms (byteAt b 10) l n
        (byteAt b 34))) }

/-- R161: a buffer of fewer than 2 bytes raises TooShort whatever it holds and whatever the direction, and a longer one never
does. -/
def Obligations.DecRaisesTooShort : Prop :=
  ∀ (s : State) (dir : Direction) (b : List Byte) (rest : List Input), s.inputs = .dec dir b :: rest →
    (b.length < 2 →
      step s = .next { s with inputs := rest, port := .decoder, result := some (.decodeError .tooShort) }) ∧
    (2 ≤ b.length → ∀ t, step s = .next t → t.result ≠ some (.decodeError .tooShort))

/-- R163, with the byte lists of R94; the rest of the buffer, its length and its checksum are not examined. -/
def Obligations.DecRaisesUnknownCommand : Prop :=
  ∀ (s : State) (dir : Direction) (b : List Byte) (rest : List Input), s.inputs = .dec dir b :: rest →
    2 ≤ b.length → b.length ≤ 37 → unknownCommand dir (byteAt b 0) →
    step s = .next { s with inputs := rest, port := .decoder, result := some (.decodeError .unknownCommand) }

/-- R164. -/
def Obligations.DecRaisesChecksumMismatch : Prop :=
  ∀ (s : State) (dir : Direction) (b : List Byte) (rest : List Input), s.inputs = .dec dir b :: rest →
    2 ≤ b.length → b.length ≤ 37 → ¬unknownCommand dir (byteAt b 0) →
    byteAt b (b.length - 1) ≠ chk b (b.length - 1) →
    step s = .next { s with inputs := rest, port := .decoder, result := some (.decodeError .checksumMismatch) }

/-- The net effect of R164 and R165 (R165 is the spec's own decision D4): a buffer whose command byte is known decodes if and
only if it is 37 bytes long and its byte 36 is the checksum of the 36 before it, and fails with ChecksumMismatch otherwise. -/
def Obligations.KnownCommandDecodesIffFullAndSealed : Prop :=
  ∀ (dir : Direction) (b : List Byte), 2 ≤ b.length → ¬unknownCommand dir (byteAt b 0) →
    ((∃ i, decode dir b = .ok i) ↔ b.length = 37 ∧ byteAt b 36 = chk b 36) ∧
    ((¬∃ i, decode dir b = .ok i) → decode dir b = .err .checksumMismatch)

/-- R177 (the spec's decision D5): the bytes a layout does not declare are ignored, whatever they are; two sealed frames that
agree on the declared offsets of their kind, checksum aside, decode to the same message. -/
def Obligations.ReservedBytesAreIgnored : Prop :=
  ∀ (dir : Direction) (b c : List Byte) (k : Kind), b.length = 37 → c.length = 37 → select dir (byteAt b 0) = some k →
    byteAt b 36 = chk b 36 → byteAt c 36 = chk c 36 →
    (∀ off, off < 36 → k.reserved off = false → byteAt b off = byteAt c off) → decode dir b = decode dir c

/-! ## The checksum -/

/-- R130: `CHK` hands over the sum of the first `k` bytes mod 256 and changes nothing else. -/
def Obligations.ChkIsTheSumMod256 : Prop :=
  ∀ (s : State) (b : List Byte) (k : Nat) (rest : List Input), s.inputs = .chk b k :: rest → b.length ≤ 37 → k ≤ b.length →
    ∃ v : Byte, v.toNat = ((b.take k).map BitVec.toNat).sum % 256 ∧
      step s = .next { s with inputs := rest, result := some (.checksum v) }

/-- R131: an 8-bit accumulator that wraps gives the same checksum. -/
def Obligations.WrappingAccumulatorIsTheChecksum : Prop :=
  ∀ (b : List Byte) (k : Nat), chkAccumulator b k = chk b k

/-- R134: a change of one of the 36 covered bytes alone always makes decoding fail, with UnknownCommand if the changed byte is
the command byte and its new value is unknown, with ChecksumMismatch otherwise. -/
def Obligations.OneChangedByteNeverDecodes : Prop :=
  ∀ (dir : Direction) (b : List Byte) (i : Instr) (off : Nat) (v : Byte), decode dir b = .ok i → off < 36 →
    v ≠ byteAt b off →
    (off = 0 ∧ unknownCommand dir v → decode dir (b.set off v) = .err .unknownCommand) ∧
    (¬(off = 0 ∧ unknownCommand dir v) → decode dir (b.set off v) = .err .checksumMismatch)

/-! ## The frame reader -/

/-- LEN_IMPLICIT: a first byte 0 to 4 is kept as offset 0 and the reader aims for 37 bytes. -/
def Obligations.LenImplicitAimsFor37 : Prop :=
  ∀ (x : Byte) (s : State), x.toNat ≤ 4 → s.phase = .first →
    ∃ t, exec (.lenImplicit x) s = .next t ∧ t.phase = .rest ∧ t.cnt = 1 ∧ t.len = 37 ∧ t.rbuf.read 0 = x ∧
      (∀ a, a ≠ 0 → t.rbuf.read a = s.rbuf.read a) ∧
      t.rx = s.rx ∧ t.inputs = s.inputs ∧ t.port = s.port ∧ t.result = s.result

/-- LEN_EXPLICIT: a first byte 5 to 36 is kept as offset 0 and the reader aims for as many bytes as it says. -/
def Obligations.LenExplicitAimsForTheByte : Prop :=
  ∀ (x : Byte) (s : State), 5 ≤ x.toNat → x.toNat ≤ 36 → s.phase = .first →
    ∃ t, exec (.lenExplicit x) s = .next t ∧ t.phase = .rest ∧ t.cnt = 1 ∧ t.len.toNat = x.toNat ∧ t.rbuf.read 0 = x ∧
      (∀ a, a ≠ 0 → t.rbuf.read a = s.rbuf.read a) ∧
      t.rx = s.rx ∧ t.inputs = s.inputs ∧ t.port = s.port ∧ t.result = s.result

/-- LEN_CLAMPED: a first byte 37 to 255 is kept as offset 0 and the reader aims for 37 bytes. -/
def Obligations.LenClampedAimsFor37 : Prop :=
  ∀ (x : Byte) (s : State), 37 ≤ x.toNat → s.phase = .first →
    ∃ t, exec (.lenClamped x) s = .next t ∧ t.phase = .rest ∧ t.cnt = 1 ∧ t.len = 37 ∧ t.rbuf.read 0 = x ∧
      (∀ a, a ≠ 0 → t.rbuf.read a = s.rbuf.read a) ∧
      t.rx = s.rx ∧ t.inputs = s.inputs ∧ t.port = s.port ∧ t.result = s.result

/-- Outside phase First a byte is no first byte, and the three classes have no meaning there (the model's choice, log 10). -/
def Obligations.FirstByteClassesStopOutsidePhaseFirst : Prop :=
  ∀ (x : Byte) (s : State), s.phase ≠ .first →
    exec (.lenImplicit x) s = .refused .notFirstByte ∧ exec (.lenExplicit x) s = .refused .notFirstByte ∧
    exec (.lenClamped x) s = .refused .notFirstByte

/-- R192 with the length of R194, for every first byte without exception: the byte is stored at offset 0, `cnt` is 1, `len` is
the byte clamped to 37 if it is greater than 4 and 37 otherwise, and nothing is handed over. -/
def Obligations.FirstByteStartsTheFrame : Prop :=
  ∀ (s : State) (x : Byte) (r : List Byte) (rest : List Input),
    s.inputs = .deliver :: rest → s.phase = .first → s.rx = x :: r →
    ∃ t, step s = .next t ∧ t.phase = .rest ∧ t.cnt = 1 ∧ t.len.toNat = (if x.toNat > 4 then min x.toNat 37 else 37) ∧
      t.rbuf.read 0 = x ∧ (∀ a, a ≠ 0 → t.rbuf.read a = s.rbuf.read a) ∧
      t.rx = r ∧ t.inputs = rest ∧ t.port = s.port ∧ t.result = none

/-- R195: a further byte that does not complete the frame is stored at offset `cnt`, which goes up by 1. -/
def Obligations.FurtherByteIsStored : Prop :=
  ∀ (s : State) (x : Byte) (r : List Byte) (rest : List Input),
    s.inputs = .deliver :: rest → s.phase = .rest → s.rx = x :: r → s.Inv → s.cnt.toNat + 1 < s.len.toNat →
    ∃ t, step s = .next t ∧ t.phase = .rest ∧ t.cnt.toNat = s.cnt.toNat + 1 ∧ t.len = s.len ∧
      t.rbuf.read s.cnt.toNat = x ∧ (∀ a, a ≠ s.cnt.toNat → t.rbuf.read a = s.rbuf.read a) ∧
      t.rx = r ∧ t.inputs = rest ∧ t.port = s.port ∧ t.result = none

/-- R196: the byte that makes `cnt = len` completes the frame of exactly `len` bytes, and the rest of the stream stays. -/
def Obligations.LastByteCompletesTheFrame : Prop :=
  ∀ (s : State) (x : Byte) (r : List Byte) (rest : List Input),
    s.inputs = .deliver :: rest → s.phase = .rest → s.rx = x :: r → s.Inv → s.cnt.toNat + 1 = s.len.toNat →
    ∃ t b, step s = .next t ∧ t.result = some (.frame b) ∧ b.length = s.len.toNat ∧ byteAt b s.cnt.toNat = x ∧
      (∀ a, a < s.cnt.toNat → byteAt b a = s.rbuf.read a) ∧ t.phase = .idle ∧ t.cnt = 0 ∧
      t.rx = r ∧ t.inputs = rest ∧ t.port = s.port

/-- R193: no first byte before the timeout gives Empty, and nothing is consumed. -/
def Obligations.TimeoutBeforeTheFirstByteIsEmpty : Prop :=
  ∀ (s : State) (rest : List Input), s.inputs = .timeout :: rest → s.phase = .first →
    step s = .next { s with inputs := rest, phase := .idle, result := some .empty }

/-- R197: a timeout in mid-frame hands over the `cnt` bytes read so far, at least one and fewer than `len`. -/
def Obligations.TimeoutInMidFrameGivesAShortFrame : Prop :=
  ∀ (s : State) (rest : List Input), s.inputs = .timeout :: rest → s.phase = .rest → s.Inv →
    ∃ b : List Byte, b.length = s.cnt.toNat ∧ 1 ≤ b.length ∧ b.length < s.len.toNat ∧
      (∀ a, a < b.length → byteAt b a = s.rbuf.read a) ∧
      step s = .next { s with inputs := rest, phase := .idle, cnt := 0, result := some (.frame b) }

/-- R198 (that the stored bytes are dropped is the spec's decision D16): an I/O error ends the read with TransportError and no
bytes. The spec leaves open how many bytes a failed read removes from the stream (R202, D16, U18); that the event itself
removes none is the model's choice (log 13). -/
def Obligations.IoErrorGivesTransportError : Prop :=
  ∀ (s : State) (rest : List Input), s.inputs = .ioError :: rest → s.phase ≠ .idle →
    step s = .next { s with inputs := rest, phase := .idle, cnt := 0, result := some .transportError }

/-- R191 and R204 (the spec's decisions D1 and D18): a start in Idle sets First and `cnt = 0` and consumes no byte; a start
while a read runs is refused. -/
def Obligations.StartReadsOnlyFromIdle : Prop :=
  ∀ (s : State) (rest : List Input), s.inputs = .rdf :: rest →
    (s.phase = .idle → step s = .next { s with inputs := rest, phase := .first, cnt := 0, result := none }) ∧
    (s.phase ≠ .idle → step s = .refused .readInProgress)

/-- R63 (b), R65 (D28, D29): a byte that arrives stands behind those that wait, in every phase; `resetInputBuffer` drops every
byte that waits when no read runs. Neither touches the block's registers. -/
def Obligations.StreamGrowsAtItsEndAndIsClearedByTheHost : Prop :=
  ∀ (s : State) (rest : List Input),
    (∀ x, s.inputs = .arrive x :: rest → step s = .next { s with inputs := rest, rx := s.rx ++ [x], result := none }) ∧
    (s.inputs = .resetInput :: rest → s.phase = .idle → step s = .next { s with inputs := rest, rx := [], result := none })

/-- R20, R60: the operations `CHK`, `ENC`, `DEC` write nothing that outlives them but the result: no register of the reader,
no byte of `rbuf`, no byte of the stream, in any phase; and the result is a function of their inputs alone, the same in every
other state. -/
def Obligations.CodecOperationsLeaveTheReaderAlone : Prop :=
  ∀ (s t : State) (i : Input) (rest : List Input), s.inputs = i :: rest → i.isCodec = true → step s = .next t →
    t.phase = s.phase ∧ t.cnt = s.cnt ∧ t.len = s.len ∧ t.rbuf = s.rbuf ∧ t.rx = s.rx ∧ t.inputs = rest ∧
    t.result.isSome = true ∧
    (∀ (s' : State) (rest' : List Input), s'.inputs = i :: rest' → ∃ t', step s' = .next t' ∧ t'.result = t.result)

/-- R244: the authentication answer 0x10, read from its first byte, comes out as 16 bytes, is refused by the decoder, and
leaves 21 bytes of residue in the stream. -/
def Obligations.AuthenticationAnswerIsCutAt16Bytes : Prop :=
  ∀ (s : State) (uu cc : Byte) (more : List Byte) (rest : List Input), s.Inv → s.phase = .first →
    s.rx = [0x10] ++ zeros 34 ++ [uu, cc] ++ more → s.inputs = List.replicate 16 .deliver ++ rest →
    ∃ t : State, Host.Core.run core 16 s = .next t ∧ t.result = some (.frame ([0x10] ++ zeros 15)) ∧ t.phase = .idle ∧ t.cnt = 0 ∧
      t.rx = zeros 19 ++ [uu, cc] ++ more ∧ t.inputs = rest ∧
      decode .response ([0x10] ++ zeros 15) = .err .checksumMismatch

/-- R199: the step machine returns what the function of two reads returns for the matching read answers, consumes the same
bytes, and is back in Idle; this for every stream that holds what is read and every pair of answers (R190). For a read that
fails, what is left in the stream is the model's choice and no rule of the spec, which leaves the number of bytes lost open
(R202, D16, U18): exactly the bytes delivered before the `E` are lost (log 13). A read of `m` bytes that fails after all `m` is
left out by `fits`: the step machine cannot tell it from one that has its bytes (log 13). -/
def Obligations.StepsOfRdfMatchTheTwoReads : Prop :=
  ∀ (s : State) (a1 a2 : ReadAnswer) (rest : List Input), s.Inv → s.phase = .idle →
    a1.fits 1 = true → a2.fits (aimedLength s.rx - 1) = true → readTaken a1 a2 ≤ s.rx.length →
    s.inputs = readInputs s.rx a1 a2 ++ rest →
    ∃ t : State, Host.Core.run core (readInputs s.rx a1 a2).length s = .next t ∧
      t.result = some (readFrame s.rx a1 a2).1 ∧ t.rx = (readFrame s.rx a1 a2).2 ∧
      t.phase = .idle ∧ t.cnt = 0 ∧ t.inputs = rest

/-- The bound of R205: a read in progress ends within 37 events, each a byte, a timeout or an I/O error, and hands something
over; here the events come one after the other, and the bytes wait. That they come at all is the environment's fairness, see
`EveryReadEndsUnderAFairEnvironment`. -/
def Obligations.ReadEndsWithin37Events : Prop :=
  ∀ (s : State) (es rest : List Input), s.Inv → s.phase ≠ .idle → (∀ e ∈ es, e.isReaderEvent = true) → es.length = 37 →
    37 ≤ s.rx.length → s.inputs = es ++ rest →
    ∃ (n : Nat) (t : State), 1 ≤ n ∧ n ≤ 37 ∧ Host.Core.run core n s = .next t ∧ t.phase = .idle ∧ t.cnt = 0 ∧ t.result.isSome = true

/-- R205 with its fairness assumption on the environment: from every state with a read in progress, whatever else happens
between the events and however long the machine waits for them, if every step has a rule and a reader that is not Idle
eventually receives an event, there is a time, the first one in Idle, at which the read has ended and hands something over, after
at most 37 events of which at most one is a `T` or an `E`. How a run over time is written is the model's choice (log 23). -/
def Obligations.EveryReadEndsUnderAFairEnvironment : Prop :=
  ∀ (env : Schedule) (s : State), s.Inv → s.phase ≠ .idle → env.Lawful s → env.Fair s →
    ∃ (n : Nat) (t : State), env.stateAt s n = some t ∧ t.phase = .idle ∧ t.cnt = 0 ∧ t.result.isSome = true ∧
      (∀ m u, m < n → env.stateAt s m = some u → u.phase ≠ .idle) ∧
      env.count Input.isReaderEvent n ≤ 37 ∧ env.count Input.isTimeoutOrError n ≤ 1

/-! ## The whole machine -/

/-- Where the spec gives no rule the model has no step, and each refusal has its own name (U6, U16, U17 of
93_implementation_defined.md, R57, R63, R94, R190; log 7, 8, 9): a start or an input reset while a read runs, an event with no
read in progress, a delivery with no byte waiting, a buffer longer than the port, a count beyond the buffer, a first-byte
class at the encoder's port. -/
def Obligations.SituationsWithoutARuleAreRefused : Prop :=
  ∀ (s : State) (rest : List Input),
    (s.phase ≠ .idle → s.inputs = .rdf :: rest → step s = .refused .readInProgress) ∧
    (s.phase ≠ .idle → s.inputs = .resetInput :: rest → step s = .refused .resetDuringRead) ∧
    (∀ e : Input, e.isReaderEvent = true → s.phase = .idle → s.inputs = e :: rest → step s = .refused .noReadInProgress) ∧
    (s.phase ≠ .idle → s.rx = [] → s.inputs = .deliver :: rest → step s = .refused .noByteWaiting) ∧
    (∀ dir b, 37 < b.length → s.inputs = .dec dir b :: rest → step s = .refused .bufferTooLong) ∧
    (∀ b k, 37 < b.length → s.inputs = .chk b k :: rest → step s = .refused .bufferTooLong) ∧
    (∀ b k, b.length ≤ 37 → b.length < k → s.inputs = .chk b k :: rest → step s = .refused .countBeyondBuffer) ∧
    (∀ i, i.isMessage = false → s.inputs = .enc i :: rest → step s = .refused .notAMessageKind)

/-- R25: every step keeps the invariant of the reader's registers and the canonical form of `rbuf`. -/
def Obligations.StepKeepsTheReaderInvariant : Prop :=
  ∀ s t : State, s.Inv → step s = .next t → t.Inv

/-- The invariant holds after reset. -/
def Obligations.ReaderInvariantHoldsAtReset : Prop := State.reset.Inv

/-- Under the invariant no step faults: the reader never reaches an offset above 36. -/
def Obligations.NoStepFaultsUnderTheInvariant : Prop :=
  ∀ (s : State) (f : Fault), s.Inv → step s ≠ .fault f

/-- R32: no rule reads `len` outside phase Rest or `rbuf[i]` for `i ≥ cnt`: two states that differ only there take steps a
host cannot tell apart. It holds of every state, and it says that the reset values the model chose for `len` and `rbuf` (log
3, 4) and for `port` (log 5) are never seen. -/
def Obligations.UnobservableStateIsNeverRead : Prop :=
  ∀ s t : State, s.Alike t → OutcomeAlike (step s) (step t)

/-- R110 for `arm` with the codes of R100 (95_test_vectors.md A4), written as numbers: for every partition 1 to 8 and each of the
five arm modes the frame has the mode's code as action and the 0-indexed partition as argument. -/
def Obligations.ArmSendsItsCodeAndTheZeroIndexedPartition : Prop :=
  ∀ (src : Byte) (partition : Nat) (mode : ActionName) (code : Byte), 1 ≤ partition → partition ≤ 8 →
    (mode, code) ∈ [(ActionName.arm, (0x04 : Byte)), (.armStay, 0x01), (.armSleep, 0x02), (.armInstant, 0x07),
      (.armStayInstant, 0x06)] →
    ∃ i, PseudoOp.expand src (.arm partition mode) = some i ∧
      encode i = withChecksum ([0x40, 0, 0, 0, code, BitVec.ofNat 8 (partition - 1)] ++ zeros 27 ++ [src, 0, 0])
end

