-- ==== Sys2Proof/Laws/Memory.lean ====
section
/-! SUPPORT. The laws of the frame buffer: every write keeps the canonical form, reading after writing, and equal reads are equal buffers. -/
namespace Sys2Proof

@[simp] theorem Memory.read_empty (a : Nat) : Memory.empty.read a = 0 := rfl

@[simp] theorem Memory.wf_empty : Memory.empty.wf = true := rfl

theorem Memory.wfFrom_cons {lo a : Nat} {v : Byte} {m : Memory} :
    Memory.wfFrom lo ((a, v) :: m) = true ↔ lo ≤ a ∧ a < 37 ∧ v ≠ 0 ∧ Memory.wfFrom (a + 1) m = true := by
  simp [Memory.wfFrom, Memory.unlisted, and_assoc]

theorem Memory.wfFrom_mono {lo lo' : Nat} {m : Memory} (h : lo' ≤ lo) (w : Memory.wfFrom lo m = true) :
    Memory.wfFrom lo' m = true := by
  cases m with
  | nil => rfl
  | cons c m =>
    obtain ⟨a, v⟩ := c
    rw [Memory.wfFrom_cons] at w ⊢
    exact ⟨Nat.le_trans h w.1, w.2⟩

/-- Below the first listed offset every offset reads as unlisted. -/
theorem Memory.read_below {lo a : Nat} {m : Memory} (w : Memory.wfFrom lo m = true) (h : a < lo) : m.read a = 0 := by
  induction m generalizing lo with
  | nil => rfl
  | cons c m ih =>
    obtain ⟨b, v⟩ := c
    rw [Memory.wfFrom_cons] at w
    simp only [Memory.read]
    rw [if_neg (by omega)]
    exact ih w.2.2.2 (by omega)

theorem Memory.read_erase (m : Memory) (a b : Nat) : (m.erase a).read b = if b = a then 0 else m.read b := by
  induction m with
  | nil => simp [Memory.erase, Memory.read, Memory.unlisted]
  | cons c m ih =>
    obtain ⟨d, u⟩ := c
    by_cases hd : d = a
    · subst d
      have : Memory.erase ((a, u) :: m) a = Memory.erase m a := by simp [Memory.erase]
      rw [this, ih]
      by_cases hb : b = a <;> simp [Memory.read, hb]
    · have : Memory.erase ((d, u) :: m) a = (d, u) :: Memory.erase m a := by simp [Memory.erase, hd]
      rw [this]
      simp only [Memory.read]
      rw [ih]
      by_cases hb : b = d
      · subst b
        simp [hd]
      · simp [hb]

theorem Memory.read_insert {m : Memory} {a b : Nat} {v : Byte} (h : ∀ c ∈ m, c.1 ≠ a) :
    (m.insert a v).read b = if b = a then v else m.read b := by
  induction m with
  | nil => simp [Memory.insert, Memory.read]
  | cons c m ih =>
    obtain ⟨d, u⟩ := c
    simp only [Memory.insert]
    split
    · rfl
    · simp only [Memory.read]
      rw [ih fun c hc => h c (List.mem_cons_of_mem _ hc)]
      have hd : d ≠ a := h (d, u) List.mem_cons_self
      by_cases hb : b = d
      · subst b
        simp [hd]
      · simp [hb]

theorem Memory.erase_ne (m : Memory) (a : Nat) : ∀ c ∈ m.erase a, c.1 ≠ a := by
  intro c hc
  have := (List.mem_filter.mp hc).2
  simpa using this

/-- Reading one byte after writing one byte: the byte written at its offset, every other offset as before. -/
@[simp] theorem Memory.read_put (m : Memory) (a b : Nat) (v : Byte) :
    (m.put a v).read b = if b = a then v else m.read b := by
  unfold Memory.put
  split
  · rename_i hv
    rw [Memory.read_erase, hv]
    rfl
  · rw [Memory.read_insert (m.erase_ne a), Memory.read_erase]
    by_cases hb : b = a <;> simp [hb]

theorem Memory.wfFrom_erase {lo a : Nat} {m : Memory} (w : Memory.wfFrom lo m = true) :
    Memory.wfFrom lo (m.erase a) = true := by
  induction m generalizing lo with
  | nil => rfl
  | cons c m ih =>
    obtain ⟨d, u⟩ := c
    have w' := Memory.wfFrom_cons.mp w
    by_cases hd : d = a
    · have : Memory.erase ((d, u) :: m) a = Memory.erase m a := by simp [Memory.erase, hd]
      rw [this]
      exact Memory.wfFrom_mono (by omega) (ih w'.2.2.2)
    · have : Memory.erase ((d, u) :: m) a = (d, u) :: Memory.erase m a := by simp [Memory.erase, hd]
      rw [this]
      exact Memory.wfFrom_cons.mpr ⟨w'.1, w'.2.1, w'.2.2.1, ih w'.2.2.2⟩

theorem Memory.wfFrom_insert {lo a : Nat} {v : Byte} {m : Memory} (w : Memory.wfFrom lo m = true) (ha : lo ≤ a)
    (hb : a < 37) (hv : v ≠ 0) (h : ∀ c ∈ m, c.1 ≠ a) : Memory.wfFrom lo (m.insert a v) = true := by
  induction m generalizing lo with
  | nil => exact Memory.wfFrom_cons.mpr ⟨ha, hb, hv, rfl⟩
  | cons c m ih =>
    obtain ⟨d, u⟩ := c
    have w' := Memory.wfFrom_cons.mp w
    have hd : d ≠ a := h (d, u) List.mem_cons_self
    simp only [Memory.insert]
    split
    · exact Memory.wfFrom_cons.mpr ⟨ha, hb, hv, Memory.wfFrom_cons.mpr ⟨by omega, w'.2⟩⟩
    · exact Memory.wfFrom_cons.mpr ⟨w'.1, w'.2.1, w'.2.2.1,
        ih w'.2.2.2 (by omega) fun c hc => h c (List.mem_cons_of_mem _ hc)⟩

/-- A write keeps the canonical form. -/
theorem Memory.wf_put {a : Nat} {v : Byte} {m : Memory} (w : m.wf = true) (hb : a < 37) : (m.put a v).wf = true := by
  unfold Memory.put
  split
  · exact Memory.wfFrom_erase w
  · rename_i hv
    exact Memory.wfFrom_insert (Memory.wfFrom_erase w) (Nat.zero_le a) hb hv (m.erase_ne a)

/-- Writing a run of bytes keeps the canonical form. -/
theorem Memory.wf_putBytes {off : Nat} {l : List Byte} {m : Memory} (w : m.wf = true) (h : off + l.length ≤ 37) :
    (m.putBytes off l).wf = true := by
  induction l generalizing m off with
  | nil => exact w
  | cons v l ih =>
    simp only [List.length_cons] at h
    exact ih (Memory.wf_put w (by omega)) (by omega)

/-- Reading after writing a run of bytes. -/
@[simp] theorem Memory.read_putBytes (m : Memory) (off b : Nat) (l : List Byte) :
    (m.putBytes off l).read b = if off ≤ b ∧ b < off + l.length then byteAt l (b - off) else m.read b := by
  induction l generalizing m off with
  | nil =>
    rw [if_neg (by simp)]
    rfl
  | cons v l ih =>
    show ((m.put off v).putBytes (off + 1) l).read b = _
    rw [ih, Memory.read_put, List.length_cons]
    by_cases h1 : off + 1 ≤ b ∧ b < off + 1 + l.length
    · rw [if_pos h1, if_pos (by omega)]
      have : b - off = (b - (off + 1)) + 1 := by omega
      rw [this]
      rfl
    · rw [if_neg h1]
      by_cases h2 : b = off
      · subst b
        rw [if_pos rfl, if_pos (by omega), Nat.sub_self]
        rfl
      · rw [if_neg h2, if_neg (by omega)]

/-- A 16-bit write keeps the canonical form. -/
theorem Memory.wf_putU16be {off : Nat} {v : Half} {m : Memory} (w : m.wf = true) (h : off + 1 < 37) :
    (m.putU16be off v).wf = true := Memory.wf_put (Memory.wf_put w (by omega)) h

/-- Reading after a 16-bit write: the high byte at the lower offset (R53). -/
@[simp] theorem Memory.read_putU16be (m : Memory) (off b : Nat) (v : Half) :
    (m.putU16be off v).read b = if b = off + 1 then lowByte v else if b = off then highByte v else m.read b := by
  unfold Memory.putU16be
  rw [Memory.read_put, Memory.read_put]

theorem Memory.eq_of_read_from {lo : Nat} {m n : Memory} (wm : Memory.wfFrom lo m = true) (wn : Memory.wfFrom lo n = true)
    (h : ∀ a, m.read a = n.read a) : m = n := by
  induction m generalizing lo n with
  | nil =>
    cases n with
    | nil => rfl
    | cons c n =>
      obtain ⟨a, v⟩ := c
      have w' := Memory.wfFrom_cons.mp wn
      have := h a
      simp only [Memory.read, if_true, Memory.unlisted] at this
      exact absurd this.symm w'.2.2.1
  | cons c m ih =>
    obtain ⟨a, v⟩ := c
    have wm' := Memory.wfFrom_cons.mp wm
    cases n with
    | nil =>
      have := h a
      simp only [Memory.read, if_true, Memory.unlisted] at this
      exact absurd this wm'.2.2.1
    | cons d n =>
      obtain ⟨b, u⟩ := d
      have wn' := Memory.wfFrom_cons.mp wn
      have hab : a = b := by
        rcases Nat.lt_trichotomy a b with hlt | heq | hgt
        · have := h a
          simp only [Memory.read, if_true] at this
          rw [if_neg (by omega), Memory.read_below wn'.2.2.2 (by omega)] at this
          exact absurd this wm'.2.2.1
        · exact heq
        · have := h b
          simp only [Memory.read, if_true] at this
          rw [if_neg (by omega), Memory.read_below wm'.2.2.2 (by omega)] at this
          exact absurd this.symm wn'.2.2.1
      subst b
      have hvu : v = u := by simpa [Memory.read] using h a
      subst u
      congr 1
      refine ih wm'.2.2.2 wn'.2.2.2 fun e => ?_
      by_cases he : e = a
      · subst e
        rw [Memory.read_below wm'.2.2.2 (by omega), Memory.read_below wn'.2.2.2 (by omega)]
      · simpa [Memory.read, he] using h e

/-- The form is canonical: buffers in it that read alike everywhere are the same data. -/
theorem Memory.eq_of_read {m n : Memory} (wm : m.wf = true) (wn : n.wf = true) (h : ∀ a, m.read a = n.read a) : m = n :=
  Memory.eq_of_read_from wm wn h

@[simp] theorem Memory.length_toBytes (m : Memory) (n : Nat) : (m.toBytes n).length = n := by
  simp [Memory.toBytes]

/-- The byte of a run handed over is the byte of the buffer. -/
@[simp] theorem Memory.byteAt_toBytes (m : Memory) (n i : Nat) :
    byteAt (m.toBytes n) i = if i < n then m.read i else 0 := by
  unfold byteAt Memory.toBytes
  by_cases h : i < n
  · simp [List.getD, h]
  · simp [List.getD, h]

/-- A shorter run is a prefix of a longer one. -/
theorem Memory.take_toBytes (m : Memory) {k n : Nat} (h : k ≤ n) : (m.toBytes n).take k = m.toBytes k := by
  simp [Memory.toBytes, ← List.map_take, List.take_range, Nat.min_eq_left h]

/-- Runs of buffers that read alike below `n` are equal. -/
theorem Memory.toBytes_congr {m m' : Memory} {n : Nat} (h : ∀ i, i < n → m.read i = m'.read i) :
    m.toBytes n = m'.toBytes n := by
  unfold Memory.toBytes
  exact List.map_congr_left fun i hi => h i (List.mem_range.mp hi)

end Sys2Proof
end

