-- ==== Sys2Proof/Laws/Decode.lean ====
section
/-! SUPPORT. What the decoder can answer, the selection against the dispatch table, the classes of a first byte, and the bytes of every layout. -/
namespace Sys2Proof

/-- The answers of the decoder: one of five cases (R178). -/
theorem decode_cases (dir : Direction) (b : List Byte) :
    (b.length < 2 ∧ decode dir b = .err .tooShort) ∨
    (2 ≤ b.length ∧ select dir (byteAt b 0) = none ∧ decode dir b = .err .unknownCommand) ∨
    (∃ k, 2 ≤ b.length ∧ select dir (byteAt b 0) = some k ∧ byteAt b (b.length - 1) ≠ chk b (b.length - 1) ∧
      decode dir b = .err .checksumMismatch) ∨
    (∃ k, 2 ≤ b.length ∧ select dir (byteAt b 0) = some k ∧ byteAt b (b.length - 1) = chk b (b.length - 1) ∧
      b.length ≠ 37 ∧ decode dir b = .err .checksumMismatch) ∨
    (∃ k, b.length = 37 ∧ select dir (byteAt b 0) = some k ∧ byteAt b 36 = chk b 36 ∧ decode dir b = .ok (extract k b)) := by
  unfold decode
  by_cases h : b.length < 2
  · exact .inl ⟨h, if_pos h⟩
  · rw [if_neg h]
    cases hk : select dir (byteAt b 0) with
    | none => exact .inr (.inl ⟨by omega, rfl, rfl⟩)
    | some k =>
      by_cases hc : byteAt b (b.length - 1) = chk b (b.length - 1)
      · by_cases hn : b.length = 37
        · refine .inr (.inr (.inr (.inr ⟨k, hn, rfl, ?_, ?_⟩)))
          · rw [hn] at hc
            exact hc
          · rw [hn] at hc
            simp [hn, hc]
        · refine .inr (.inr (.inr (.inl ⟨k, by omega, rfl, hc, hn, ?_⟩)))
          simp [hc, hn]
      · refine .inr (.inr (.inl ⟨k, by omega, rfl, hc, ?_⟩))
        simp [hc]

/-- A full frame of a known kind with a right checksum decodes to its extraction. -/
theorem decode_ok {dir : Direction} {b : List Byte} {k : Kind} (hn : b.length = 37)
    (hk : select dir (byteAt b 0) = some k) (hc : byteAt b 36 = chk b 36) : decode dir b = .ok (extract k b) := by
  unfold decode
  simp only [hn, hk, hc]
  simp

/-- Only full frames decode. -/
theorem decode_ok_inv {dir : Direction} {b : List Byte} {i : Instr} (h : decode dir b = .ok i) :
    ∃ k, b.length = 37 ∧ select dir (byteAt b 0) = some k ∧ byteAt b 36 = chk b 36 ∧ i = extract k b := by
  rcases decode_cases dir b with ⟨_, e⟩ | ⟨_, _, e⟩ | ⟨_, _, _, _, e⟩ | ⟨_, _, _, _, _, e⟩ | ⟨k, hn, hk, hc, e⟩
  · rw [e] at h; cases h
  · rw [e] at h; cases h
  · rw [e] at h; cases h
  · rw [e] at h; cases h
  · rw [e] at h
    cases h
    exact ⟨k, hn, hk, hc, rfl⟩

/-- Every extraction is a message of the kind selected. -/
theorem extract_kind (k : Kind) (b : List Byte) : (extract k b).kind = some k := by
  cases k <;> rfl

theorem decode_ok_isMessage {dir : Direction} {b : List Byte} {i : Instr} (h : decode dir b = .ok i) :
    i.isMessage = true := by
  obtain ⟨k, -, -, -, rfl⟩ := decode_ok_inv h
  unfold Instr.isMessage
  rw [extract_kind]
  rfl

theorem decodeFirstByte_not_message (x : Byte) : (decodeFirstByte x).isMessage = false := by
  unfold decodeFirstByte
  split
  · rfl
  · split <;> rfl

/-- The class rows of the opcode table as (match, mask, class number), fourteen of them (R113). -/
def firstByteRows : List (Byte × Byte × Nat) :=
  [(0x00, 0xFC, 0), (0x04, 0xFF, 0),
   (0x05, 0xFF, 1), (0x06, 0xFE, 1), (0x08, 0xF8, 1), (0x10, 0xF0, 1), (0x20, 0xFC, 1), (0x24, 0xFF, 1),
   (0x25, 0xFF, 2), (0x26, 0xFE, 2), (0x28, 0xF8, 2), (0x30, 0xF0, 2), (0x40, 0xC0, 2), (0x80, 0x80, 2)]

/-- The class number a first-byte instruction stands for. -/
def firstByteClass : Instr → Option Nat
  | .lenImplicit _ => some 0
  | .lenExplicit _ => some 1
  | .lenClamped _ => some 2
  | _ => none

/-- The class of every byte is that of the one table row it matches: the rows cover 0 to 255 exactly once (R113). -/
theorem decodeFirstByte_rows : ∀ x : Byte,
    ((firstByteRows.filter fun r => x &&& r.2.1 == r.1).map fun r => some r.2.2) = [firstByteClass (decodeFirstByte x)] := by
  decide +revert

end Sys2Proof
end

