-- ==== Sys2Proof/Laws/Encode.lean ====
section
/-! SUPPORT. The last step of every encoding, and the arithmetic of 16-bit fields and ranged command bytes. -/
namespace Sys2Proof

/-- One byte more of a buffer. -/
theorem Memory.toBytes_succ (m : Memory) (n : Nat) : m.toBytes (n + 1) = m.toBytes n ++ [m.read n] := by
  simp [Memory.toBytes, List.range_succ]

/-- Only offset 36 of a finished frame differs. -/
@[simp] theorem Memory.read_finish (m : Memory) (a : Nat) :
    m.finish.read a = if a = 36 then chk (m.toBytes 36) 36 else m.read a := Memory.read_put m 36 a _

/-- The bytes of a finished frame: those at offsets 0 to 35, and their checksum (R140). -/
theorem Memory.toBytes_finish (m : Memory) : m.finish.toBytes 37 = withChecksum (m.toBytes 36) := by
  have below : m.finish.toBytes 36 = m.toBytes 36 := by
    refine Memory.toBytes_congr fun i hi => ?_
    rw [Memory.read_finish, if_neg (by omega)]
  rw [Memory.toBytes_succ m.finish 36, below, Memory.read_finish, if_pos rfl]
  rfl

/-- A finished frame is in the canonical form. -/
theorem Memory.wf_finish {m : Memory} (w : m.wf = true) : m.finish.wf = true := Memory.wf_put w (by decide)

theorem highByte_eq (v : Half) : highByte v = BitVec.ofNat 8 (v.toNat / 256) := by
  apply BitVec.eq_of_toNat_eq
  simp [highByte, BitVec.extractLsb'_toNat, Nat.shiftRight_eq_div_pow]

theorem lowByte_eq (v : Half) : lowByte v = BitVec.ofNat 8 (v.toNat % 256) := by
  apply BitVec.eq_of_toNat_eq
  simp [lowByte, BitVec.extractLsb'_toNat]

/-- A 16-bit value is its two bytes, the high one first (R53). -/
theorem u16_of_bytes (v : Half) : BitVec.ofNat 16 ((highByte v).toNat * 256 + (lowByte v).toNat) = v := by
  apply BitVec.eq_of_toNat_eq
  have := v.isLt
  simp only [highByte, lowByte, BitVec.extractLsb'_toNat, Nat.shiftRight_eq_div_pow, BitVec.toNat_ofNat]
  omega

/-- The two bytes of a 16-bit value that was assembled from two bytes are those bytes (R53). -/
theorem highByte_u16 (a b : Byte) : highByte (BitVec.ofNat 16 (a.toNat * 256 + b.toNat)) = a := by
  apply BitVec.eq_of_toNat_eq
  have := a.isLt
  have := b.isLt
  simp only [highByte, BitVec.extractLsb'_toNat, Nat.shiftRight_eq_div_pow, BitVec.toNat_ofNat]
  omega

theorem lowByte_u16 (a b : Byte) : lowByte (BitVec.ofNat 16 (a.toNat * 256 + b.toNat)) = b := by
  apply BitVec.eq_of_toNat_eq
  have := a.isLt
  have := b.isLt
  simp only [lowByte, BitVec.extractLsb'_toNat, Nat.shiftRight_eq_div_pow, BitVec.toNat_ofNat]
  omega

/-- In the three range families the or of base and nibble is their sum (R135). -/
theorem commandOf_action (lo : Nibble) : commandOf 0x40#8 lo = BitVec.ofNat 8 (0x40 + lo.toNat) := by
  revert lo; decide
theorem commandOf_eeprom (lo : Nibble) : commandOf 0x50#8 lo = BitVec.ofNat 8 (0x50 + lo.toNat) := by
  revert lo; decide
theorem commandOf_event (lo : Nibble) : commandOf 0xE0#8 lo = BitVec.ofNat 8 (0xE0 + lo.toNat) := by
  revert lo; decide

/-- The nibble comes back from the command byte (R95). -/
theorem lowNibble_commandOf_action (lo : Nibble) : lowNibble (commandOf 0x40#8 lo) = lo := by
  revert lo; decide
theorem lowNibble_commandOf_eeprom (lo : Nibble) : lowNibble (commandOf 0x50#8 lo) = lo := by
  revert lo; decide
theorem lowNibble_commandOf_event (lo : Nibble) : lowNibble (commandOf 0xE0#8 lo) = lo := by
  revert lo; decide

/-- The command byte comes back from its nibble within its range (R95). -/
theorem commandOf_lowNibble_action : ∀ c : Byte, 0x40 ≤ c.toNat → c.toNat < 0x50 → commandOf 0x40#8 (lowNibble c) = c := by
  decide
theorem commandOf_lowNibble_eeprom : ∀ c : Byte, 0x50 ≤ c.toNat → c.toNat < 0x60 → commandOf 0x50#8 (lowNibble c) = c := by
  decide
theorem commandOf_lowNibble_event : ∀ c : Byte, 0xE0 ≤ c.toNat → c.toNat < 0xF0 → commandOf 0xE0#8 (lowNibble c) = c := by
  decide

/-- `cmd[3:0]` as a number. -/
theorem lowNibble_eq : ∀ c : Byte, lowNibble c = BitVec.ofNat 4 c.toNat := by
  decide

/-- A run taken at an offset is the slice there (R8). -/
theorem bytesAt_val {b : List Byte} {off n : Nat} (h : off + n ≤ b.length) : (bytesAt b off n).val = (b.drop off).take n := by
  apply List.ext_getElem
  · simp [bytesAt]
    omega
  · intro i h1 h2
    have : off + i < b.length := by
      simp [bytesAt] at h1
      omega
    simp [bytesAt, byteAt, List.getD, this]

/-- The bytes of a run taken at an offset. -/
@[simp] theorem byteAt_bytesAt (b : List Byte) (off n i : Nat) :
    byteAt (bytesAt b off n).val i = if i < n then byteAt b (off + i) else 0 := by
  by_cases h : i < n <;> simp [bytesAt, byteAt, List.getD, h]

/-- A run is its bytes. -/
theorem bytes_eq_map {n : Nat} (w : Bytes n) : w.val = (List.range n).map (byteAt w.val) := by
  obtain ⟨l, h⟩ := w
  apply List.ext_getElem
  · simp [h]
  · intro i h1 h2
    simp only at h1
    simp [byteAt, List.getD, h1]

/-- Runs of one length are equal when their bytes are. -/
theorem bytes_ext {n : Nat} {v w : Bytes n} (h : ∀ i, i < n → byteAt v.val i = byteAt w.val i) : v = w := by
  apply Subtype.ext
  rw [bytes_eq_map v, bytes_eq_map w]
  exact List.map_congr_left fun i hi => h i (List.mem_range.mp hi)

/-- Buffers of one length are equal when their bytes are. -/
theorem buffer_ext {b c : List Byte} (hn : b.length = c.length) (h : ∀ i, i < b.length → byteAt b i = byteAt c i) :
    b = c := by
  have := bytes_ext (v := ⟨b, hn⟩) (w := ⟨c, rfl⟩) fun i hi => h i (by omega)
  exact congrArg Subtype.val this

/-- The checksum depends on the first `k` bytes only (R130). -/
theorem chk_congr {b c : List Byte} {k : Nat} (h : b.take k = c.take k) : chk b k = chk c k := by
  unfold chk
  rw [h]

theorem length_withChecksum {p : List Byte} (h : p.length = 36) : (withChecksum p).length = 37 := by
  simp [withChecksum, h]

/-- The bytes of a sealed frame. -/
theorem byteAt_withChecksum {p : List Byte} (h : p.length = 36) (i : Nat) :
    byteAt (withChecksum p) i = if i < 36 then byteAt p i else if i = 36 then chk p 36 else 0 := by
  unfold withChecksum byteAt
  by_cases h1 : i < 36
  · simp [h1, List.getD, List.getElem?_append, h]
  · by_cases h2 : i = 36
    · simp [h2, List.getD, h]
    · have h3 : 1 ≤ i - 36 := by omega
      simp [h1, h2, List.getD, List.getElem?_append, h, List.getElem?_eq_none, h3]

/-- The checksum of a sealed frame is that of its payload. -/
theorem chk_withChecksum {p : List Byte} (h : p.length = 36) : chk (withChecksum p) 36 = chk p 36 :=
  chk_congr (by simp [withChecksum, h])

/-- A finished frame satisfies the frame invariant `f[36] = CHK(f, 36)` (R132). -/
theorem finish_sealed (m : Memory) : byteAt (m.finish.toBytes 37) 36 = chk (m.finish.toBytes 37) 36 := by
  rw [Memory.toBytes_finish, byteAt_withChecksum (by simp), chk_withChecksum (by simp)]
  simp

/-- The bytes of a message are those of a finished buffer (R140). -/
theorem encode_message {i : Instr} (h : i.isMessage = true) : ∃ m : Memory, encode i = m.finish.toBytes 37 := by
  cases i <;> first
    | (simp only [Instr.isMessage, Instr.kind, Option.isSome_none, Bool.false_eq_true] at h; done)
    | exact ⟨_, rfl⟩

/-- A reserved offset lies below the checksum. -/
theorem reserved_lt {k : Kind} {off : Nat} (h : k.reserved off = true) : off < 36 := by
  have table : ∀ k : Kind, k.reserved 36 = false := by intro k; cases k <;> rfl
  have h37 : off < 37 := by
    unfold Kind.reserved at h
    simp only [Bool.and_eq_true, decide_eq_true_eq] at h
    exact h.1
  rcases Nat.lt_or_ge off 36 with h' | h'
  · exact h'
  · have : off = 36 := by omega
    subst this
    rw [table k] at h
    cases h

/-- The lists of R94 are what the selection rejects (R162). -/
theorem select_none_iff : ∀ (dir : Direction) (cmd : Byte), select dir cmd = none ↔ unknownCommand dir cmd := by
  intro dir
  cases dir
  · show ∀ cmd : Byte, select .request cmd = none ↔ _ ∧ _ ∧ _ ∧ _
    decide
  · show ∀ cmd : Byte, select .response cmd = none ↔ _ ∧ _ ∧ _ ∧ _ ∧ _
    decide

end Sys2Proof
end

