-- ==== Sys2Proof/Laws/State.lean ====
section
/-! SUPPORT. One lemma per field per state update of the shared operations, and the lemmas of reset. -/
namespace Sys2Proof.Machine

section
variable (s : State) (r : Result) (x : Byte) (rest : List Input)

@[simp] theorem deliverResult_phase : (deliverResult r s).phase = s.phase := rfl
@[simp] theorem deliverResult_cnt : (deliverResult r s).cnt = s.cnt := rfl
@[simp] theorem deliverResult_len : (deliverResult r s).len = s.len := rfl
@[simp] theorem deliverResult_rbuf : (deliverResult r s).rbuf = s.rbuf := rfl
@[simp] theorem deliverResult_rx : (deliverResult r s).rx = s.rx := rfl
@[simp] theorem deliverResult_inputs : (deliverResult r s).inputs = s.inputs := rfl
@[simp] theorem deliverResult_port : (deliverResult r s).port = s.port := rfl
@[simp] theorem deliverResult_result : (deliverResult r s).result = some r := rfl

@[simp] theorem endRead_phase : (endRead s).phase = .idle := rfl
@[simp] theorem endRead_cnt : (endRead s).cnt = 0 := rfl
@[simp] theorem endRead_len : (endRead s).len = s.len := rfl
@[simp] theorem endRead_rbuf : (endRead s).rbuf = s.rbuf := rfl
@[simp] theorem endRead_rx : (endRead s).rx = s.rx := rfl
@[simp] theorem endRead_inputs : (endRead s).inputs = s.inputs := rfl
@[simp] theorem endRead_port : (endRead s).port = s.port := rfl
@[simp] theorem endRead_result : (endRead s).result = s.result := rfl

@[simp] theorem storeByte_phase : (storeByte x s).phase = s.phase := rfl
@[simp] theorem storeByte_cnt : (storeByte x s).cnt = s.cnt + 1 := rfl
@[simp] theorem storeByte_len : (storeByte x s).len = s.len := rfl
@[simp] theorem storeByte_rbuf : (storeByte x s).rbuf = s.rbuf.put s.cnt.toNat x := rfl
@[simp] theorem storeByte_rx : (storeByte x s).rx = s.rx := rfl
@[simp] theorem storeByte_inputs : (storeByte x s).inputs = s.inputs := rfl
@[simp] theorem storeByte_port : (storeByte x s).port = s.port := rfl
@[simp] theorem storeByte_result : (storeByte x s).result = s.result := rfl

@[simp] theorem takeInput_phase : (takeInput rest s).phase = s.phase := rfl
@[simp] theorem takeInput_cnt : (takeInput rest s).cnt = s.cnt := rfl
@[simp] theorem takeInput_len : (takeInput rest s).len = s.len := rfl
@[simp] theorem takeInput_rbuf : (takeInput rest s).rbuf = s.rbuf := rfl
@[simp] theorem takeInput_rx : (takeInput rest s).rx = s.rx := rfl
@[simp] theorem takeInput_inputs : (takeInput rest s).inputs = rest := rfl
@[simp] theorem takeInput_port : (takeInput rest s).port = s.port := rfl
@[simp] theorem takeInput_result : (takeInput rest s).result = none := rfl

@[simp] theorem wait_phase : (wait s).phase = s.phase := rfl
@[simp] theorem wait_cnt : (wait s).cnt = s.cnt := rfl
@[simp] theorem wait_len : (wait s).len = s.len := rfl
@[simp] theorem wait_rbuf : (wait s).rbuf = s.rbuf := rfl
@[simp] theorem wait_rx : (wait s).rx = s.rx := rfl
@[simp] theorem wait_inputs : (wait s).inputs = s.inputs := rfl
@[simp] theorem wait_port : (wait s).port = s.port := rfl
@[simp] theorem wait_result : (wait s).result = none := rfl

end

@[simp] theorem reset_phase : State.reset.phase = .idle := rfl
@[simp] theorem reset_cnt : State.reset.cnt = 0 := rfl
@[simp] theorem reset_rbuf : State.reset.rbuf = Memory.empty := rfl
@[simp] theorem reset_rx : State.reset.rx = [] := rfl
@[simp] theorem reset_inputs : State.reset.inputs = [] := rfl
@[simp] theorem reset_result : State.reset.result = none := rfl

/-- The reset buffer is in the canonical form. -/
theorem reset_rbuf_wf : State.reset.rbuf.wf = true := rfl

end Sys2Proof.Machine
end

