-- ==== Sys2Proof/Laws/Ops.lean ====
section
/-! SUPPORT. What each shared operation and the step can do, said once. -/
namespace Sys2Proof.Machine

/-- A message at a codec port always completes and writes nothing but the result. -/
theorem codec_next (frame : Memory) (message : Message) (s : State) :
    codec frame message s = .next (deliverResult
      (match s.port with
        | .encoder => .encoded (frame.toBytes 37)
        | .decoder => .decoded message) s) := by
  unfold codec
  cases s.port <;> rfl

theorem raise_next (e : DecodeError) (s : State) : raise e s = .next (deliverResult (.decodeError e) s) := rfl

/-- The first byte has a next state in phase First only. -/
theorem firstByte_cases {x : Byte} {target : Count} {s : State} :
    (s.phase = .first ∧ firstByte x target s =
      .next { s with rbuf := s.rbuf.put 0 x, cnt := 1, len := target, phase := .rest }) ∨
    (s.phase ≠ .first ∧ firstByte x target s = .refused .notFirstByte) := by
  unfold firstByte
  cases s.phase <;> simp

theorem presentFrame_cases {n : Nat} {s : State} :
    (n ≤ 37 ∧ presentFrame n s = .next (deliverResult (.frame (s.rbuf.toBytes n)) (endRead s))) ∨
    (37 < n ∧ presentFrame n s = .fault .offsetOutsideFrame) := by
  unfold presentFrame
  by_cases h : n ≤ 37
  · exact .inl ⟨h, if_pos h⟩
  · exact .inr ⟨by omega, if_neg h⟩

/-- A further byte completes the frame, or is stored and the read goes on, or has no offset to stand at. -/
theorem furtherByte_cases {x : Byte} {s : State} :
    (s.cnt.toNat < 37 ∧ s.cnt + 1 = s.len ∧ furtherByte x s =
      .next (deliverResult (.frame ((s.rbuf.put s.cnt.toNat x).toBytes s.len.toNat)) (endRead (storeByte x s)))) ∨
    (s.cnt.toNat < 37 ∧ s.cnt + 1 ≠ s.len ∧ furtherByte x s = .next (storeByte x s)) ∨
    (37 ≤ s.cnt.toNat ∧ furtherByte x s = .fault .offsetOutsideFrame) := by
  unfold furtherByte
  by_cases h : s.cnt.toNat < 37
  · rw [if_pos h]
    by_cases h1 : s.cnt + 1 = s.len
    · refine .inl ⟨h, h1, ?_⟩
      rw [if_pos (by simpa using h1)]
      have hn : s.len.toNat ≤ 37 := by
        rw [← h1, BitVec.toNat_add]
        have : (1 : Count).toNat = 1 := rfl
        omega
      unfold presentFrame
      rw [if_pos hn]
      rfl
    · refine .inr (.inl ⟨h, h1, ?_⟩)
      rw [if_neg (by simpa using h1)]
  · exact .inr (.inr ⟨by omega, if_neg h⟩)

/-- The step takes the first input and runs it. -/
theorem step_cons {s : State} {i : Input} {rest : List Input} (h : s.inputs = i :: rest) :
    step s = runInput i (takeInput rest s) := by
  unfold step stepInput
  rw [h]

/-- With no input the machine waits. -/
theorem step_nil {s : State} (h : s.inputs = []) : step s = .next (wait s) := by
  unfold step stepInput
  rw [h]

/-- A byte delivered to a read in progress leaves the front of the stream. -/
theorem deliverByte_first {s : State} {x : Byte} {r : List Byte} (hp : s.phase = .first) (hr : s.rx = x :: r) :
    deliverByte s = exec (decodeFirstByte x) { s with rx := r } := by
  unfold deliverByte
  rw [hp, hr]

theorem deliverByte_rest {s : State} {x : Byte} {r : List Byte} (hp : s.phase = .rest) (hr : s.rx = x :: r) :
    deliverByte s = furtherByte x { s with rx := r } := by
  unfold deliverByte
  rw [hp, hr]

/-- What a delivery can do. -/
theorem deliverByte_cases {s : State} :
    (s.phase = .idle ∧ deliverByte s = .refused .noReadInProgress) ∨
    (s.phase ≠ .idle ∧ s.rx = [] ∧ deliverByte s = .refused .noByteWaiting) ∨
    (∃ x r, s.phase = .first ∧ s.rx = x :: r ∧ deliverByte s = exec (decodeFirstByte x) { s with rx := r }) ∨
    (∃ x r, s.phase = .rest ∧ s.rx = x :: r ∧ deliverByte s = furtherByte x { s with rx := r }) := by
  unfold deliverByte
  cases hp : s.phase <;> cases hr : s.rx <;> simp

/-- The meaning of a message is one frame and one typed message, whatever the state. -/
theorem exec_codec {i : Instr} (h : i.isMessage = true) :
    ∃ (frame : Memory) (message : Message), ∀ s : State, exec i s = codec frame message s := by
  cases i <;> first | exact ⟨_, _, fun _ => rfl⟩ | exact absurd h (by simp [Instr.isMessage, Instr.kind])

/-- Every message completes at either port; only the result is written. -/
theorem exec_message {i : Instr} (h : i.isMessage = true) (s : State) :
    ∃ r, exec i s = .next (deliverResult r s) := by
  cases i <;> first | exact ⟨_, codec_next _ _ _⟩ | exact absurd h (by simp [Instr.isMessage, Instr.kind])

/-- `FrameLen` as a number, 5 to 37 (R194). -/
theorem frameLen_toNat (x : Byte) : (frameLen x).toNat = if x.toNat > 4 then min x.toNat 37 else 37 := by
  revert x
  decide

/-- In phase First the class of a byte, whichever it is, stores the byte and aims for its `FrameLen`. -/
theorem exec_decodeFirstByte {s : State} (x : Byte) (hp : s.phase = .first) :
    exec (decodeFirstByte x) s =
      .next { s with rbuf := s.rbuf.put 0 x, cnt := 1, len := frameLen x, phase := .rest } := by
  have hf : frameLen x = if x.toNat ≤ 4 then 37 else if x.toNat ≤ 36 then x.setWidth 6 else 37 := by
    revert x
    decide
  rw [hf]
  unfold decodeFirstByte
  split
  · show firstByte _ _ _ = _
    unfold firstByte
    rw [hp]
    rfl
  · split
    · show firstByte _ _ _ = _
      unfold firstByte
      rw [hp]
    · show firstByte _ _ _ = _
      unfold firstByte
      rw [hp]
      rfl

/-- `CHK` hands its byte over and writes nothing else, or cannot be presented. -/
theorem driveChk_cases (b : List Byte) (k : Nat) (s : State) :
    (b.length ≤ 37 ∧ k ≤ b.length ∧ driveChk b k s = .next (deliverResult (.checksum (chk b k)) s)) ∨
    (∃ e, driveChk b k s = .refused e) := by
  unfold driveChk
  split
  · exact .inr ⟨_, rfl⟩
  · rename_i h
    split
    · exact .inr ⟨_, rfl⟩
    · exact .inl ⟨Nat.le_of_not_gt h, by omega, rfl⟩

/-- `ENC` hands a result over and writes nothing else but the port, or cannot be presented. -/
theorem driveEnc_cases (i : Instr) (s : State) :
    (∃ r, driveEnc i s = .next (deliverResult r { s with port := .encoder })) ∨ (∃ e, driveEnc i s = .refused e) := by
  unfold driveEnc
  split
  · rename_i hm
    obtain ⟨r, e⟩ := exec_message hm { s with port := .encoder }
    exact .inl ⟨r, e⟩
  · exact .inr ⟨_, rfl⟩

/-- `DEC` hands a result over, a message or an error, and writes nothing else but the port, or cannot be presented. -/
theorem driveDec_cases (dir : Direction) (b : List Byte) (s : State) :
    (∃ r, driveDec dir b s = .next (deliverResult r { s with port := .decoder })) ∨ (∃ e, driveDec dir b s = .refused e) := by
  unfold driveDec
  split
  · exact .inr ⟨_, rfl⟩
  · split
    · rename_i _ i hd
      obtain ⟨r, e⟩ := exec_message (decode_ok_isMessage hd) { s with port := .decoder }
      exact .inl ⟨r, e⟩
    · exact .inl ⟨_, rfl⟩

end Sys2Proof.Machine
end

