-- ==== Sys2Proof/Laws/PerInstr.lean ====
section
/-! SUPPORT. One lemma per instruction: how many bytes an instruction takes in the byte streams of the block. -/
namespace Sys2Proof.Laws.EncodeLength

/-- A message takes a whole frame of 37 bytes (R50, R140), a first byte takes itself (R98). -/
def Statement (i : Instr) : Prop := (encode i).length = if i.isMessage = true then Config.frameBytes else 1

theorem initiateReq (u : Byte) : Statement (.initiateReq u) := Memory.length_toBytes _ _
theorem initiateResp (res p v r m : Byte) (n : Half) (w : Bytes 2) (src u : Byte) :
    Statement (.initiateResp res p v r m n w src u) := Memory.length_toBytes _ _
theorem initializeReq (p v r m : Byte) (n : Half) (w : Bytes 2) (src u : Byte) :
    Statement (.initializeReq p v r m n w src u) := Memory.length_toBytes _ _
theorem initializeOk (u : Byte) : Statement (.initializeOk u) := Memory.length_toBytes _ _
theorem initializeFail (u : Byte) : Statement (.initializeFail u) := Memory.length_toBytes _ _
theorem actionReq (a g src u34 u35 : Byte) : Statement (.actionReq a g src u34 u35) := Memory.length_toBytes _ _
theorem actionResp (lo : Nibble) (u : Byte) : Statement (.actionResp lo u) := Memory.length_toBytes _ _
theorem eepromReq (a : Half) (r src u34 u35 : Byte) : Statement (.eepromReq a r src u34 u35) := Memory.length_toBytes _ _
theorem eepromResp (lo : Nibble) (a : Half) (r : Byte) (d : Bytes 27) : Statement (.eepromResp lo a r d) :=
  Memory.length_toBytes _ _
theorem liveEvent (lo : Nibble) (g e1 e2 p : Byte) (ms : Bytes 4) (t : Byte) (l : Bytes 16) (u : Byte) :
    Statement (.liveEvent lo g e1 e2 p ms t l u) := Memory.length_toBytes _ _
theorem lenImplicit (b : Byte) : Statement (.lenImplicit b) := rfl
theorem lenExplicit (b : Byte) : Statement (.lenExplicit b) := rfl
theorem lenClamped (b : Byte) : Statement (.lenClamped b) := rfl

end Sys2Proof.Laws.EncodeLength
end

