-- ==== Sys2Proof/Laws/Run.lean ====
section
/-! SUPPORT. Runs of several steps, taken apart at a step; states over time under a schedule, taken apart in the same way. -/
namespace Sys2Proof.Machine

/-- A run of one step more. -/
theorem run_succ {s t : State} (h : step s = .next t) (k : Nat) :
    Host.Core.run core (k + 1) s = Host.Core.run core k t := by
  have h' : core.step s = .next t := h
  simp only [Host.Core.run, h']

/-- A run of one step. -/
theorem run_one {s t : State} (h : step s = .next t) : Host.Core.run core 1 s = .next t := run_succ h 0

/-- A run that goes on where another ended. -/
theorem run_add {s t : State} {m : Nat} (h : Host.Core.run core m s = .next t) (k : Nat) :
    Host.Core.run core (m + k) s = Host.Core.run core k t := by
  induction m generalizing s with
  | zero =>
    cases h
    rw [Nat.zero_add]
  | succ m ih =>
    rw [show m + 1 + k = (m + k) + 1 by omega]
    cases hs : step s with
    | next u =>
      rw [run_succ hs] at h ⊢
      exact ih h
    | fault r =>
      exfalso
      have hs' : core.step s = _ := hs
      simp only [Host.Core.run, hs'] at h
      cases h
    | refused r =>
      exfalso
      have hs' : core.step s = _ := hs
      simp only [Host.Core.run, hs'] at h
      cases h

section
variable (s : State) (i : Option Input)

@[simp] theorem given_phase : (s.given i).phase = s.phase := rfl
@[simp] theorem given_cnt : (s.given i).cnt = s.cnt := rfl
@[simp] theorem given_len : (s.given i).len = s.len := rfl
@[simp] theorem given_rbuf : (s.given i).rbuf = s.rbuf := rfl
@[simp] theorem given_rx : (s.given i).rx = s.rx := rfl
@[simp] theorem given_inputs : (s.given i).inputs = i.toList := rfl
@[simp] theorem given_port : (s.given i).port = s.port := rfl
@[simp] theorem given_result : (s.given i).result = s.result := rfl

end

@[simp] theorem stateAt_zero (env : Schedule) (s : State) : env.stateAt s 0 = some s := rfl

/-- One time further, where the step answers a next state. -/
theorem stateAt_succ {env : Schedule} {s t u : State} {n : Nat} (ht : env.stateAt s n = some t)
    (hu : step (t.given (env n)) = .next u) : env.stateAt s (n + 1) = some u := by
  simp only [Schedule.stateAt, ht, hu]

/-- A state at a later time comes from a state one time before by a step. -/
theorem stateAt_succ_inv {env : Schedule} {s u : State} {n : Nat} (hu : env.stateAt s (n + 1) = some u) :
    ∃ t, env.stateAt s n = some t ∧ step (t.given (env n)) = .next u := by
  simp only [Schedule.stateAt] at hu
  split at hu
  · cases hu
  · rename_i t ht
    refine ⟨t, ht, ?_⟩
    split at hu
    · rename_i h
      cases hu
      exact h
    · cases hu
    · cases hu

/-- In a lawful run every state takes its step. -/
theorem Schedule.Lawful.step {env : Schedule} {s t : State} {n : Nat} (h : env.Lawful s) (ht : env.stateAt s n = some t) :
    ∃ u, Machine.step (t.given (env n)) = .next u ∧ env.stateAt s (n + 1) = some u := by
  obtain ⟨u, hu⟩ := Option.ne_none_iff_exists'.mp (h (n + 1))
  obtain ⟨t', ht', hs⟩ := stateAt_succ_inv hu
  rw [ht] at ht'
  cases ht'
  exact ⟨u, hs, hu⟩

/-- Where nothing comes, the machine waits. -/
theorem stateAt_wait {env : Schedule} {s t : State} {n : Nat} (ht : env.stateAt s n = some t) (hn : env n = none) :
    env.stateAt s (n + 1) = some (wait (t.given none)) :=
  stateAt_succ ht (by rw [hn]; exact step_nil rfl)

/-- While a read runs, nothing but its events touches the reader's registers. -/
theorem step_between_events {s t : State} {i : Option Input} (hp : s.phase ≠ .idle) (hi : i.any Input.isReaderEvent = false)
    (h : step (s.given i) = .next t) :
    t.phase = s.phase ∧ t.cnt = s.cnt ∧ t.len = s.len ∧ t.rbuf = s.rbuf := by
  cases i with
  | none =>
    rw [step_nil rfl] at h
    cases h
    exact ⟨rfl, rfl, rfl, rfl⟩
  | some i =>
    rw [step_cons (i := i) (rest := []) rfl] at h
    cases i with
    | chk b k =>
      change driveChk _ _ _ = _ at h
      rcases driveChk_cases b k (takeInput [] (s.given (some (.chk b k)))) with ⟨-, -, e⟩ | ⟨e, he⟩
      · rw [e] at h
        cases h
        exact ⟨rfl, rfl, rfl, rfl⟩
      · rw [he] at h
        cases h
    | enc m =>
      change driveEnc _ _ = _ at h
      rcases driveEnc_cases m (takeInput [] (s.given (some (.enc m)))) with ⟨r, e⟩ | ⟨e, he⟩
      · rw [e] at h
        cases h
        exact ⟨rfl, rfl, rfl, rfl⟩
      · rw [he] at h
        cases h
    | dec dir b =>
      change driveDec _ _ _ = _ at h
      rcases driveDec_cases dir b (takeInput [] (s.given (some (.dec dir b)))) with ⟨r, e⟩ | ⟨e, he⟩
      · rw [e] at h
        cases h
        exact ⟨rfl, rfl, rfl, rfl⟩
      · rw [he] at h
        cases h
    | rdf =>
      change startRead _ = _ at h
      unfold startRead at h
      simp only [takeInput_phase, given_phase] at h
      split at h
      · exact absurd ‹_› hp
      · cases h
      · cases h
    | resetInput =>
      change resetInput _ = _ at h
      unfold resetInput at h
      simp only [takeInput_phase, given_phase] at h
      split at h
      · exact absurd ‹_› hp
      · cases h
      · cases h
    | arrive x =>
      cases h
      exact ⟨rfl, rfl, rfl, rfl⟩
    | deliver => cases hi
    | timeout => cases hi
    | ioError => cases hi

end Sys2Proof.Machine
end

