-- ==== Sys2Proof/Tests/Slice0.lean ====
section
/-! SUPPORT. The model's own tests: ill-formed terms refused, words written out from the spec's layouts, the vectors of
95_test_vectors.md (their numbers V… stand in the comments), and a concrete state meeting the hypotheses of every statement. -/
namespace Sys2Proof.Tests

open Sys2Proof Sys2Proof.Machine

/-! ## Helpers -/

/-- The next state of an outcome, if it is one. -/
def nextOf (o : Host.Outcome State Fault Refusal) : Option State :=
  match o with
  | .next s => some s
  | .fault _ => none
  | .refused _ => none

/-- The refusal of an outcome, if it is one. -/
def refusalOf (o : Host.Outcome State Fault Refusal) : Option Refusal :=
  match o with
  | .next _ => none
  | .fault _ => none
  | .refused r => some r

/-- What the step hands to the host. -/
def resultOf (o : Host.Outcome State Fault Refusal) : Option Result :=
  match o with
  | .next s => s.result
  | .fault _ => none
  | .refused _ => none

/-- The reset state with a message at the encoder's port. -/
def atEncoder : State := { State.reset with port := .encoder }

/-- The reset state with one input to come. -/
def driven (i : Input) : State := { State.reset with inputs := [i] }

/-- A read that waits for its first byte, with a stream and an input to come. -/
def waiting (rx : List Byte) (i : Input) : State := { State.reset with phase := .first, rx := rx, inputs := [i] }

/-- A read in mid-frame that has stored `b` and aims for `len` bytes, with a stream and an input to come. -/
def inFrame (b : List Byte) (len : Count) (rx : List Byte) (i : Input) : State :=
  { State.reset with phase := .rest, cnt := BitVec.ofNat 6 b.length, len := len, rbuf := Memory.empty.putBytes 0 b, rx := rx,
                     inputs := [i] }

/-- "Front Door" and six zero bytes (95_test_vectors.md A10). -/
def frontDoor : Bytes 16 := ⟨[0x46, 0x72, 0x6F, 0x6E, 0x74, 0x20, 0x44, 0x6F, 0x6F, 0x72, 0, 0, 0, 0, 0, 0], rfl⟩

/-- The data of V28, 01 to 1B. -/
def data28 : Bytes 27 :=
  ⟨[0x01, 0x02, 0x03, 0x04, 0x05, 0x06, 0x07, 0x08, 0x09, 0x0A, 0x0B, 0x0C, 0x0D, 0x0E, 0x0F, 0x10, 0x11, 0x12, 0x13, 0x14,
    0x15, 0x16, 0x17, 0x18, 0x19, 0x1A, 0x1B], rfl⟩

/-- The frames of V20 to V29, byte by byte (30_encoding.md R83 to R92, 95_test_vectors.md B2). -/
def v20 : List Byte := [0x72] ++ zeros 35 ++ [0x72]
def v21 : List Byte := [0x72, 0xFF, 0, 0, 0, 0, 0x04, 0x04, 0x02, 0x01, 0x04, 0xD2] ++ zeros 24 ++ [0x52]
def v22 : List Byte := [0x00, 0x04, 0x04, 0x02, 0x01, 0x04, 0xD2, 0x12, 0x34] ++ zeros 27 ++ [0x27]
def v23 : List Byte := [0x10] ++ zeros 35 ++ [0x10]
def v24 : List Byte := [0x70] ++ zeros 35 ++ [0x70]
def v25 : List Byte := [0x40, 0, 0, 0, 0x01, 0x02] ++ zeros 30 ++ [0x43]
def v26 : List Byte := [0x40] ++ zeros 35 ++ [0x40]
def v27 : List Byte := [0x50, 0x00, 0x12, 0x34, 0x20] ++ zeros 31 ++ [0xB6]
def v28 : List Byte := [0x50, 0x00, 0x12, 0x34, 0x01] ++ data28.val ++ zeros 4 ++ [0x11]
def v29 : List Byte := [0xE1, 0, 0, 0, 0, 0x02, 0, 0, 0, 0, 0] ++ frontDoor.val ++ zeros 9 ++ [0xA0]

/-! ## WellFormed refuses the ill-formed -/

theorem test_wf_refuses_initiateResp_result :
    Instr.WellFormed (.initiateResp 0x00 4 4 2 1 1234 ⟨[0, 0], rfl⟩ 0 0) = false := by decide
theorem test_wf_refuses_initializeReq_userId :
    Instr.WellFormed (.initializeReq 4 4 2 1 1234 ⟨[0, 0], rfl⟩ 0 1) = false := by decide
theorem test_wf_refuses_lenImplicit_5 : Instr.WellFormed (.lenImplicit 5) = false := by decide
theorem test_wf_refuses_lenExplicit_4_and_37 :
    Instr.WellFormed (.lenExplicit 4) = false ∧ Instr.WellFormed (.lenExplicit 37) = false := by decide
theorem test_wf_refuses_lenClamped_36 : Instr.WellFormed (.lenClamped 36) = false := by decide

/-! ## Decoding written-out words, one per constructor (V30 to V39, V50 to V55) -/

theorem test_decode_initiateReq : decode .request v20 = .ok (.initiateReq 0) := by decide
theorem test_decode_initiateResp :
    decode .response v21 = .ok (.initiateResp 0xFF 4 4 2 1 1234 ⟨[0, 0], rfl⟩ 0 0) := by decide
theorem test_decode_initializeReq :
    decode .request v22 = .ok (.initializeReq 4 4 2 1 1234 ⟨[0x12, 0x34], rfl⟩ 0 0) := by decide
theorem test_decode_initializeOk : decode .response v23 = .ok (.initializeOk 0) := by decide
theorem test_decode_initializeFail : decode .response v24 = .ok (.initializeFail 0) := by decide
theorem test_decode_actionReq : decode .request v25 = .ok (.actionReq 1 2 0 0 0) := by decide
theorem test_decode_actionResp : decode .response v26 = .ok (.actionResp 0 0) := by decide
theorem test_decode_eepromReq : decode .request v27 = .ok (.eepromReq 0x1234 32 0 0 0) := by decide
theorem test_decode_eepromResp : decode .response v28 = .ok (.eepromResp 0 0x1234 1 data28) := by decide
theorem test_decode_liveEvent :
    decode .response v29 = .ok (.liveEvent 1 0 0 0 2 ⟨[0, 0, 0, 0], rfl⟩ 0 frontDoor 0) := by decide
/-- Every operand distinct and not zero (V76 with its bytes). -/
theorem test_decode_liveEvent_distinct :
    decode .response ([0xE1, 0x00, 0x01, 0x02, 0x03, 0x02, 0xDE, 0xAD, 0xBE, 0xEF, 0x04] ++ frontDoor.val ++ zeros 7 ++
      [0x09, 0x00, 0xEB]) = .ok (.liveEvent 1 1 2 3 2 ⟨[0xDE, 0xAD, 0xBE, 0xEF], rfl⟩ 4 frontDoor 9) := by decide
theorem test_decode_lenImplicit : decodeFirstByte 0x00 = .lenImplicit 0x00 ∧ decodeFirstByte 0x04 = .lenImplicit 0x04 := by
  decide
theorem test_decode_lenExplicit : decodeFirstByte 0x05 = .lenExplicit 0x05 ∧ decodeFirstByte 0x24 = .lenExplicit 0x24 := by
  decide
theorem test_decode_lenClamped : decodeFirstByte 0x25 = .lenClamped 0x25 ∧ decodeFirstByte 0xFF = .lenClamped 0xFF := by
  decide

/-! ## Errors and corner cases of the decoder (V40 to V49, V80 to V93) -/

theorem test_dec_checksum_byte_changed : decode .response ([0x40] ++ zeros 35 ++ [0x41]) = .err .checksumMismatch := by decide
theorem test_dec_two_changes_cancel :
    decode .response ([0x40] ++ zeros 9 ++ [0x01, 0xFF] ++ zeros 24 ++ [0x40]) = .ok (.actionResp 0 0) := by decide
theorem test_dec_command_before_checksum :
    decode .response ([0x60] ++ zeros 35 ++ [0x40]) = .err .unknownCommand := by decide
theorem test_dec_direction_decides : decode .request ([0x41] ++ zeros 35 ++ [0x41]) = .err .unknownCommand := by decide
theorem test_dec_short : decode .response [] = .err .tooShort ∧ decode .response [0x40] = .err .tooShort := by decide
theorem test_dec_two_bytes :
    decode .response [0x40, 0x40] = .err .checksumMismatch ∧ decode .response [0x40, 0x00] = .err .checksumMismatch := by decide
theorem test_dec_36_bytes : decode .response ([0x40] ++ zeros 35) = .err .checksumMismatch := by decide
theorem test_dec_zero_frame :
    decode .request (zeros 37) = .ok (.initializeReq 0 0 0 0 0 ⟨[0, 0], rfl⟩ 0 0) ∧
    decode .response (zeros 37) = .err .unknownCommand := by decide
theorem test_dec_range_edges :
    decode .response ([0xFF] ++ zeros 35 ++ [0xFF]) = .err .unknownCommand ∧
    decode .response ([0x60] ++ zeros 35 ++ [0x60]) = .err .unknownCommand ∧
    decode .response ([0xDF] ++ zeros 35 ++ [0xDF]) = .err .unknownCommand ∧
    decode .response ([0x3F] ++ zeros 35 ++ [0x3F]) = .err .unknownCommand := by decide

/-! ## CHK, LabelLen, FrameLen, status codes (V1 to V9, V94 to V98, V50 to V55, R210) -/

theorem test_chk :
    chk v25 0 = 0x00 ∧ chk (List.replicate 36 0xFF) 36 = 0xDC ∧ chk [0x80, 0x80] 2 = 0x00 ∧ chk [1, 2, 3] 2 = 0x03 ∧
    chk [0x12, 0x34, 0x56] 3 = 0x9C ∧ chk v21 36 = 0x52 := by decide
theorem test_labelLen :
    labelLen frontDoor = 10 ∧ labelLen ⟨zeros 16, rfl⟩ = 0 ∧ labelLen ⟨List.replicate 16 0x01, rfl⟩ = 16 ∧
    labelLen ⟨[0x41, 0x00, 0x42] ++ zeros 13, rfl⟩ = 3 ∧ labelLen ⟨zeros 15 ++ [0x01], rfl⟩ = 16 := by decide
theorem test_frameLen :
    frameLen 0x04 = 37 ∧ frameLen 0x05 = 5 ∧ frameLen 0x10 = 16 ∧ frameLen 0x24 = 36 ∧ frameLen 0x25 = 37 ∧
    frameLen 0x80 = 37 ∧ frameLen 0xFF = 37 := by decide
theorem test_statusCode :
    statusCode (.decodeError .tooShort) = some 1 ∧ statusCode (.decodeError .unknownCommand) = some 2 ∧
    statusCode (.decodeError .checksumMismatch) = some 3 ∧ statusCode .empty = some 1 ∧
    statusCode .transportError = some 2 := by decide

/-! ## Host conventions (A3, A4, A9, A10) -/

theorem test_packPassword :
    packPassword ['0', '0', '0', '0'] = some ⟨[0x00, 0x00], rfl⟩ ∧
    packPassword ['a', 'b', 'c', 'd'] = some ⟨[0xAB, 0xCD], rfl⟩ ∧
    packPassword ['1', '2'] = none ∧ packPassword ['z', 'z', 'z', 'z'] = none := by decide
theorem test_expand_disarm_and_bypass :
    PseudoOp.expand 0 (.disarm 8) = some (.actionReq 0x05 7 0 0 0) ∧
    PseudoOp.expand 0 (.bypassZone 192) = some (.actionReq 0x10 191 0 0 0) ∧
    PseudoOp.expand 0 (.bypassZone 193) = none ∧ PseudoOp.expand 0 (.arm 9 .arm) = none := by decide

/-! ## Table words (log 14) -/

theorem test_table_word_request_first : decodeTableWord 8 0x72 = some (.initiateReq 0) := by decide
theorem test_table_word_response : decodeTableWord 8 0xE1 =
    some (.liveEvent 1 0 0 0 0 ⟨zeros 4, rfl⟩ 0 ⟨zeros 16, rfl⟩ 0) := by decide
theorem test_table_word_first_byte : decodeTableWord 8 0x06 = some (.lenExplicit 0x06) := by decide
theorem test_fetch_word_runs :
    resultOf (step (State.reset.withFetchWord 8 0x40)) = some (.decoded (.actionReq 0 0 0 0 0)) ∧
    (nextOf (step (State.reset.withFetchWord 8 0x06))).map State.len = some 6 := by decide

/-! ## A witness for every statement with hypotheses, with the vector it gives where the spec prints one -/

/-- The operands of V75, every one at its maximum, meet the hypotheses of the two statements about encoded frames. -/
theorem witness_DecodeOfEncodeIsTheMessage :
    Instr.kind (.liveEvent 15 0xFF 0xFF 0xFF 0xFF ⟨List.replicate 4 0xFF, rfl⟩ 0xFF ⟨List.replicate 16 0xFF, rfl⟩ 0xFF) =
      some .liveEvent ∧
    Instr.WellFormed (.liveEvent 15 0xFF 0xFF 0xFF 0xFF ⟨List.replicate 4 0xFF, rfl⟩ 0xFF ⟨List.replicate 16 0xFF, rfl⟩
      0xFF) = true ∧
    Instr.WellFormed (.initiateResp 0xFF 0 0 0 0 0xFFFF ⟨[0, 0], rfl⟩ 0 0) = true ∧
    Instr.WellFormed (.initializeReq 0 0 0 0 0xFFFF ⟨[0, 0], rfl⟩ 0 0) = true := by decide
theorem witness_EncodedFramesAreSealedAndReservedZero : Instr.kind (.actionReq 0xFF 0xFF 0xFF 0xFF 0xFF) = some .actionReq := by
  decide
/-- A reserved byte that is not zero (V43), and an offset 1 that is not 0xFF (V86). -/
theorem witness_EncodeOfDecodeUpToReservedBytes :
    decode .response ([0x40] ++ zeros 19 ++ [0x55] ++ zeros 15 ++ [0x95]) = .ok (.actionResp 0 0) ∧
    Instr.kind (.actionResp 0 0) = some .actionResp ∧
    decode .response ([0x72, 0, 0, 0, 0, 0, 0x04, 0x04, 0x02, 0x01, 0x04, 0xD2] ++ zeros 24 ++ [0x53]) =
      .ok (.initiateResp 0x00 4 4 2 1 1234 ⟨[0, 0], rfl⟩ 0 0) := by decide

theorem witness_StepRunsTheDecodedMessage :
    (driven (.dec .request v25)).inputs = .dec .request v25 :: [] ∧ decode .request v25 = .ok (.actionReq 1 2 0 0 0) := by decide
theorem witness_StepRunsTheEncodersMessage :
    (driven (.enc (.initializeOk 0))).inputs = .enc (.initializeOk 0) :: [] ∧
    Instr.isMessage (.initializeOk 0) = true := by decide
theorem witness_StepRunsTheFirstByteInstruction :
    (waiting [0x0A, 0x99] .deliver).inputs = .deliver :: [] ∧ (waiting [0x0A, 0x99] .deliver).phase = .first ∧
    (waiting [0x0A, 0x99] .deliver).rx = 0x0A :: [0x99] := by decide
theorem witness_StepRunsThePlacedTableWord :
    decodeTableWord 8 0x70 = some (.initializeFail 0) ∧ decodeTableWord 8 0xFF = some (.lenClamped 0xFF) := by decide

/-- The two ends of each class. -/
theorem witness_FirstByteDecodesToItsClass :
    Instr.isMessage (.lenImplicit 4) = false ∧ Instr.WellFormed (.lenImplicit 4) = true ∧ encode (.lenImplicit 4) = [0x04] ∧
    Instr.WellFormed (.lenExplicit 5) = true ∧ encode (.lenExplicit 5) = [0x05] ∧
    Instr.WellFormed (.lenExplicit 36) = true ∧ encode (.lenExplicit 36) = [0x24] ∧
    Instr.WellFormed (.lenClamped 37) = true ∧ encode (.lenClamped 0xFF) = [0xFF] := by decide

/-! The encoder's vectors at a state that meets `port = encoder` (V11, V21, V77, V12, V24, V18, V19, V71, V28, V29). -/

theorem witness_EncInitiateReqBuildsItsFrame : atEncoder.port = .encoder ∧
    resultOf (exec (.initiateReq 0xFF) atEncoder) = some (.encoded ([0x72] ++ zeros 34 ++ [0xFF, 0x71])) := by decide
theorem witness_EncInitiateRespBuildsItsFrame : atEncoder.port = .encoder ∧
    resultOf (exec (.initiateResp 0x00 4 4 2 1 1234 ⟨[0, 0], rfl⟩ 0 0) atEncoder) = some (.encoded v21) := by decide
theorem witness_EncInitializeReqBuildsItsFrame : atEncoder.port = .encoder ∧
    resultOf (exec (.initializeReq 4 4 2 1 1234 ⟨[0xAB, 0xCD], rfl⟩ 0 0xEE) atEncoder) =
      some (.encoded ([0x00, 0x04, 0x04, 0x02, 0x01, 0x04, 0xD2, 0xAB, 0xCD] ++ zeros 27 ++ [0x59])) := by decide
theorem witness_EncInitializeAnswersBuildTheirFrames : atEncoder.port = .encoder ∧
    resultOf (exec (.initializeOk 0xF0) atEncoder) = some (.encoded ([0x10] ++ zeros 34 ++ [0xF0, 0x00])) ∧
    resultOf (exec (.initializeFail 0) atEncoder) = some (.encoded v24) := by decide
theorem witness_EncActionReqBuildsItsFrame : atEncoder.port = .encoder ∧
    resultOf (exec (.actionReq 1 2 5 0 0) atEncoder) =
      some (.encoded ([0x40, 0, 0, 0, 0x01, 0x02] ++ zeros 27 ++ [0x05, 0x00, 0x00, 0x48])) := by decide
theorem witness_EncActionRespBuildsItsFrame : atEncoder.port = .encoder ∧
    resultOf (exec (.actionResp 15 7) atEncoder) = some (.encoded ([0x4F] ++ zeros 34 ++ [0x07, 0x56])) := by decide
theorem witness_EncEepromReqBuildsItsFrame : atEncoder.port = .encoder ∧
    resultOf (exec (.eepromReq 0xFFFF 1 0 0 0) atEncoder) =
      some (.encoded ([0x50, 0x00, 0xFF, 0xFF, 0x01] ++ zeros 31 ++ [0x4F])) := by decide
theorem witness_EncEepromRespBuildsItsFrame : atEncoder.port = .encoder ∧
    resultOf (exec (.eepromResp 0 0x1234 1 data28) atEncoder) = some (.encoded v28) := by decide
theorem witness_EncLiveEventBuildsItsFrame : atEncoder.port = .encoder ∧
    resultOf (exec (.liveEvent 1 0 0 0 2 ⟨[0, 0, 0, 0], rfl⟩ 0 frontDoor 0) atEncoder) = some (.encoded v29) := by decide
theorem witness_MessagesWriteOnlyTheResult :
    Instr.isMessage (.eepromReq 0x1234 32 0 0 0) = true ∧ Instr.isMessage (.eepromResp 0 0x1234 1 data28) = true := by decide

/-! The decoder's vectors: the hypotheses, and the typed message the step hands over. -/

theorem witness_DecExtractsInitiateReq : v20.length = 37 ∧ byteAt v20 36 = chk v20 36 ∧ byteAt v20 0 = 0x72 ∧
    resultOf (step (driven (.dec .request v20))) = some (.decoded (.initiateReq 0)) := by decide
theorem witness_DecExtractsInitiateResp : v21.length = 37 ∧ byteAt v21 36 = chk v21 36 ∧ byteAt v21 0 = 0x72 ∧
    resultOf (step (driven (.dec .response v21))) =
      some (.decoded (.initiateResp 0xFF 4 4 2 1 1234 ⟨[0, 0], rfl⟩ 0 0)) := by decide
theorem witness_DecExtractsInitializeReq : v22.length = 37 ∧ byteAt v22 36 = chk v22 36 ∧ byteAt v22 0 = 0x00 ∧
    resultOf (step (driven (.dec .request v22))) =
      some (.decoded (.initializeReq 4 4 2 1 1234 ⟨[0x12, 0x34], rfl⟩ 0 0)) := by decide
theorem witness_DecExtractsInitializeAnswers :
    v23.length = 37 ∧ byteAt v23 36 = chk v23 36 ∧ byteAt v23 0 = 0x10 ∧
    v24.length = 37 ∧ byteAt v24 36 = chk v24 36 ∧ byteAt v24 0 = 0x70 ∧
    resultOf (step (driven (.dec .response v24))) = some (.decoded (.initializeFail 0)) := by decide
theorem witness_DecExtractsActionReq : v25.length = 37 ∧ byteAt v25 36 = chk v25 36 ∧ byteAt v25 0 = 0x40 ∧
    resultOf (step (driven (.dec .request v25))) = some (.decoded (.actionReq 1 2 0 0 0)) := by decide
/-- Command bytes 0x40 (V36) and 0x4F (V19's frame), the two ends of the range. -/
theorem witness_DecExtractsActionResp :
    v26.length = 37 ∧ byteAt v26 36 = chk v26 36 ∧ 0x40 ≤ (byteAt v26 0).toNat ∧ (byteAt v26 0).toNat < 0x50 ∧
    resultOf (step (driven (.dec .response v26))) = some (.decoded (.actionResp 0x40 0 0)) ∧
    resultOf (step (driven (.dec .response ([0x4F] ++ zeros 34 ++ [0x07, 0x56])))) =
      some (.decoded (.actionResp 0x4F 15 7)) := by decide
theorem witness_DecExtractsEepromReq : v27.length = 37 ∧ byteAt v27 36 = chk v27 36 ∧ byteAt v27 0 = 0x50 ∧
    resultOf (step (driven (.dec .request v27))) = some (.decoded (.eepromReq 0x1234 32 0 0 0)) := by decide
/-- Command bytes 0x50 (V38) and 0x5F (V90). -/
theorem witness_DecExtractsEepromResp :
    v28.length = 37 ∧ byteAt v28 36 = chk v28 36 ∧ 0x50 ≤ (byteAt v28 0).toNat ∧ (byteAt v28 0).toNat < 0x60 ∧
    resultOf (step (driven (.dec .response v28))) = some (.decoded (.eepromResp 0x50 0 0x1234 1 data28)) ∧
    resultOf (step (driven (.dec .response ([0x5F] ++ zeros 35 ++ [0x5F])))) =
      some (.decoded (.eepromResp 0x5F 15 0 0 ⟨zeros 27, rfl⟩)) := by decide
/-- Command bytes 0xE1 (V39) and 0xEF (V89, the empty label); a full label has length 16 (V96). -/
theorem witness_DecExtractsLiveEvent :
    v29.length = 37 ∧ byteAt v29 36 = chk v29 36 ∧ 0xE0 ≤ (byteAt v29 0).toNat ∧ (byteAt v29 0).toNat < 0xF0 ∧
    resultOf (step (driven (.dec .response v29))) =
      some (.decoded (.liveEvent 0xE1 1 0 0 0 2 ⟨[0, 0, 0, 0], rfl⟩ 0 frontDoor 10 0)) ∧
    resultOf (step (driven (.dec .response ([0xEF] ++ zeros 35 ++ [0xEF])))) =
      some (.decoded (.liveEvent 0xEF 15 0 0 0 0 ⟨zeros 4, rfl⟩ 0 ⟨zeros 16, rfl⟩ 0 0)) := by decide

theorem witness_DecRaisesTooShort : (driven (.dec .response [0x40])).inputs = .dec .response [0x40] :: [] ∧
    ([0x40] : List Byte).length < 2 ∧ 2 ≤ ([0x40, 0x40] : List Byte).length ∧
    (nextOf (step (driven (.dec .response [0x40, 0x40])))).isSome = true := by decide
/-- Just outside the ranges of R94, in both directions, on buffers of 2 and of 37 bytes. -/
theorem witness_DecRaisesUnknownCommand : unknownCommand .response 0x60 ∧ unknownCommand .response 0x3F ∧
    unknownCommand .response 0xDF ∧ unknownCommand .response 0xF0 ∧ unknownCommand .request 0x10 ∧
    2 ≤ ([0x60, 0x00] : List Byte).length ∧ ([0x10] ++ zeros 36).length ≤ 37 := by
  simp only [unknownCommand]
  decide
theorem witness_DecRaisesChecksumMismatch : ¬unknownCommand .response 0x40 ∧ ¬unknownCommand .response 0x5F ∧
    byteAt [0x40, 0x00] 1 ≠ chk [0x40, 0x00] 1 ∧
    byteAt ([0x5F] ++ zeros 36) 36 ≠ chk ([0x5F] ++ zeros 36) 36 := by
  simp only [unknownCommand]
  decide
/-- A buffer that decodes, a full one that does not, and the two-byte buffer of V49 whose last byte is the sum. -/
theorem witness_KnownCommandDecodesIffFullAndSealed : ¬unknownCommand .response (byteAt v26 0) ∧ 2 ≤ v26.length ∧
    decode .response v26 = .ok (.actionResp 0 0) ∧ byteAt [0x40, 0x40] 1 = chk [0x40, 0x40] 1 ∧
    decode .response [0x40, 0x40] = .err .checksumMismatch := by
  simp only [unknownCommand]
  decide
/-- V26 and V43 agree on every declared offset and differ at a reserved one. -/
theorem witness_ReservedBytesAreIgnored :
    select .response (byteAt v26 0) = some .actionResp ∧ byteAt v26 36 = chk v26 36 ∧
    byteAt ([0x40] ++ zeros 19 ++ [0x55] ++ zeros 15 ++ [0x95]) 36 =
      chk ([0x40] ++ zeros 19 ++ [0x55] ++ zeros 15 ++ [0x95]) 36 ∧
    (∀ off, off < 36 → Kind.actionResp.reserved off = false →
      byteAt v26 off = byteAt ([0x40] ++ zeros 19 ++ [0x55] ++ zeros 15 ++ [0x95]) off) ∧
    byteAt v26 20 ≠ byteAt ([0x40] ++ zeros 19 ++ [0x55] ++ zeros 15 ++ [0x95]) 20 := by decide

theorem witness_ChkIsTheSumMod256 : v25.length ≤ 37 ∧ 36 ≤ v25.length ∧ 0 ≤ v25.length ∧
    resultOf (step (driven (.chk v25 36))) = some (.checksum 0x43) := by decide
/-- The command byte changed to an unknown one (V44), to a known one (V45), and the last covered byte changed. -/
theorem witness_OneChangedByteNeverDecodes : decode .response v26 = .ok (.actionResp 0 0) ∧
    unknownCommand .response 0x60 ∧ ¬unknownCommand .response 0x41 ∧ (0x60 : Byte) ≠ byteAt v26 0 ∧
    (0x01 : Byte) ≠ byteAt v26 35 := by
  simp only [unknownCommand]
  decide

/-! The reader. -/

theorem witness_LenImplicitAimsFor37 : (waiting [] .deliver).phase = .first ∧ (0x00 : Byte).toNat ≤ 4 ∧
    (0x04 : Byte).toNat ≤ 4 ∧ (nextOf (exec (.lenImplicit 0x04) (waiting [] .deliver))).map State.len = some 37 := by decide
theorem witness_LenExplicitAimsForTheByte : (waiting [] .deliver).phase = .first ∧ 5 ≤ (0x05 : Byte).toNat ∧
    (0x24 : Byte).toNat ≤ 36 ∧ (nextOf (exec (.lenExplicit 0x24) (waiting [] .deliver))).map State.len = some 36 := by decide
theorem witness_LenClampedAimsFor37 : (waiting [] .deliver).phase = .first ∧ 37 ≤ (0x25 : Byte).toNat ∧
    37 ≤ (0xFF : Byte).toNat ∧ (nextOf (exec (.lenClamped 0xC8) (waiting [] .deliver))).map State.len = some 37 := by decide
theorem witness_FirstByteClassesStopOutsidePhaseFirst :
    State.reset.phase ≠ .first ∧ (inFrame [0x05] 5 [] .deliver).phase ≠ .first := by decide
/-- The first bytes 4 and 5, on both sides of the threshold, and 200 (V50, V51, V55). -/
theorem witness_FirstByteStartsTheFrame :
    (waiting [0x04] .deliver).rx = 0x04 :: [] ∧ (waiting [0x04] .deliver).phase = .first ∧
    (nextOf (step (waiting [0x04] .deliver))).map State.len = some 37 ∧
    (nextOf (step (waiting [0x05] .deliver))).map State.len = some 5 ∧
    (nextOf (step (waiting [0xC8, 0x01] .deliver))).map State.len = some 37 := by decide
/-- One byte stored of 5 (the least that goes on), and 35 of 37 (the most). -/
theorem witness_FurtherByteIsStored :
    (inFrame [0x05] 5 [0x01] .deliver).Inv ∧ (inFrame [0x05] 5 [0x01] .deliver).phase = .rest ∧
    (inFrame [0x05] 5 [0x01] .deliver).cnt.toNat + 1 < (inFrame [0x05] 5 [0x01] .deliver).len.toNat ∧
    (inFrame ([0x40] ++ zeros 34) 37 [0x01] .deliver).Inv ∧
    (inFrame ([0x40] ++ zeros 34) 37 [0x01] .deliver).cnt.toNat + 1 = 36 := by
  simp only [State.Inv, inFrame, State.reset]
  decide
/-- The fifth byte of V64, and a 37th byte. -/
theorem witness_LastByteCompletesTheFrame :
    (inFrame [0x05, 0x01, 0x02, 0x03] 5 [0x04, 0x99] .deliver).Inv ∧
    (inFrame [0x05, 0x01, 0x02, 0x03] 5 [0x04, 0x99] .deliver).cnt.toNat + 1 =
      (inFrame [0x05, 0x01, 0x02, 0x03] 5 [0x04, 0x99] .deliver).len.toNat ∧
    resultOf (step (inFrame [0x05, 0x01, 0x02, 0x03] 5 [0x04, 0x99] .deliver)) =
      some (.frame [0x05, 0x01, 0x02, 0x03, 0x04]) ∧
    (inFrame ([0x70] ++ zeros 35) 37 [0x70] .deliver).Inv ∧
    resultOf (step (inFrame ([0x70] ++ zeros 35) 37 [0x70] .deliver)) = some (.frame v24) := by
  simp only [State.Inv, inFrame, State.reset]
  decide
/-- V60. -/
theorem witness_TimeoutBeforeTheFirstByteIsEmpty :
    (waiting [] .timeout).phase = .first ∧ resultOf (step (waiting [] .timeout)) = some .empty := by decide
/-- V65 (one byte, the fewest) and 36 bytes of 37 (the most). -/
theorem witness_TimeoutInMidFrameGivesAShortFrame :
    (inFrame [0x40] 37 [] .timeout).Inv ∧ (inFrame [0x40] 37 [] .timeout).phase = .rest ∧
    resultOf (step (inFrame [0x40] 37 [] .timeout)) = some (.frame [0x40]) ∧
    (inFrame ([0x40] ++ zeros 35) 37 [] .timeout).Inv ∧
    resultOf (step (inFrame ([0x40] ++ zeros 35) 37 [] .timeout)) = some (.frame ([0x40] ++ zeros 35)) := by
  simp only [State.Inv, inFrame, State.reset]
  decide
/-- V68 and V69. -/
theorem witness_IoErrorGivesTransportError :
    (waiting [] .ioError).phase ≠ .idle ∧ (inFrame [0x40, 0x00] 37 [] .ioError).phase ≠ .idle ∧
    resultOf (step (inFrame [0x40, 0x00] 37 [] .ioError)) = some .transportError := by decide
theorem witness_StartReadsOnlyFromIdle :
    (driven .rdf).phase = .idle ∧ (driven .rdf).inputs = .rdf :: [] ∧ (waiting [] .rdf).phase ≠ .idle ∧
    (waiting [] .rdf).inputs = .rdf :: [] := by decide
theorem witness_StreamGrowsAtItsEndAndIsClearedByTheHost :
    (waiting [0x01] (.arrive 0x02)).inputs = .arrive 0x02 :: [] ∧
    (nextOf (step (waiting [0x01] (.arrive 0x02)))).map State.rx = some [0x01, 0x02] ∧
    (driven .resetInput).inputs = .resetInput :: [] ∧ (driven .resetInput).phase = .idle := by decide
theorem witness_CodecOperationsLeaveTheReaderAlone :
    (inFrame [0x40] 37 [0x07] (.dec .request v20)).inputs = .dec .request v20 :: [] ∧
    Input.isCodec (.dec .request v20) = true ∧
    (nextOf (step (inFrame [0x40] 37 [0x07] (.dec .request v20)))).map State.cnt = some 1 := by decide
/-- The stream of P3. -/
theorem witness_AuthenticationAnswerIsCutAt16Bytes :
    ({ State.reset with phase := .first, rx := v23, inputs := List.replicate 16 .deliver } : State).Inv ∧
    v23 = [0x10] ++ zeros 34 ++ [0x00, 0x10] ++ [] ∧
    List.replicate 16 Input.deliver = List.replicate 16 .deliver ++ [] := by
  simp only [State.Inv, State.reset]
  decide
/-- The stream of V62: a first read of one byte and a second of nine, of eight and a timeout, of four and an error; and a
first read that gives nothing, or fails. -/
theorem witness_StepsOfRdfMatchTheTwoReads :
    State.reset.Inv ∧ State.reset.phase = .idle ∧ aimedLength ([0x0A] ++ zeros 8 ++ [0x0A, 0x99]) = 10 ∧
    (ReadAnswer.bytes 1).fits 1 = true ∧ (ReadAnswer.bytes 9).fits 9 = true ∧ (ReadAnswer.bytes 8).fits 9 = true ∧
    (ReadAnswer.fails 4).fits 9 = true ∧ (ReadAnswer.bytes 0).fits 1 = true ∧ (ReadAnswer.fails 0).fits 1 = true ∧
    readTaken (.bytes 1) (.bytes 9) ≤ ([0x0A] ++ zeros 8 ++ [0x0A, 0x99]).length ∧
    (readFrame ([0x0A] ++ zeros 8 ++ [0x0A, 0x99]) (.bytes 1) (.bytes 9)) =
      (.frame ([0x0A] ++ zeros 8 ++ [0x0A]), [0x99]) := by
  simp only [State.Inv, State.reset]
  decide
theorem witness_ReadEndsWithin37Events :
    ({ State.reset with phase := .first, rx := zeros 37, inputs := List.replicate 37 .deliver } : State).Inv ∧
    (∀ e ∈ List.replicate 37 Input.deliver, e.isReaderEvent = true) ∧
    (List.replicate 37 Input.deliver).length = 37 ∧ 37 ≤ (zeros 37).length := by
  simp only [State.Inv, State.reset]
  decide
/-- A schedule that keeps a waiting reader waiting, lets a byte arrive, then gives a timeout, and nothing ever after. -/
def lateTimeout : Schedule := fun n =>
  if n = 1 then some (.arrive 0x40) else if n = 2 then some .timeout else none

/-- From time 3 on the reader stays in Idle. -/
theorem lateTimeout_ends : ∀ k, ∃ t, lateTimeout.stateAt (waiting [] .rdf) (k + 3) = some t ∧ t.phase = .idle
  | 0 => ⟨_, rfl, rfl⟩
  | k + 1 => by
    obtain ⟨t, ht, hp⟩ := lateTimeout_ends k
    exact ⟨_, stateAt_wait ht (by simp [lateTimeout]), hp⟩

/-- The schedule is lawful and fair for a reader that waits for its first byte. -/
theorem witness_EveryReadEndsUnderAFairEnvironment :
    (waiting [] .rdf).Inv ∧ (waiting [] .rdf).phase ≠ .idle ∧ lateTimeout.Lawful (waiting [] .rdf) ∧
    lateTimeout.Fair (waiting [] .rdf) := by
  refine ⟨⟨by decide, rfl⟩, by decide, ?_, ?_⟩
  · rintro (_ | _ | _ | k)
    · decide
    · decide
    · decide
    · obtain ⟨t, ht, -⟩ := lateTimeout_ends k
      rw [ht]
      exact Option.some_ne_none t
  · intro n t ht hp
    by_cases hn : n ≤ 2
    · exact ⟨2, .timeout, hn, rfl, rfl⟩
    · obtain ⟨u, hu, hi⟩ := lateTimeout_ends (n - 3)
      rw [show n - 3 + 3 = n by omega, ht] at hu
      cases hu
      exact absurd hi hp

/-! The whole machine. -/

/-- One state for each of the eight situations. -/
theorem witness_SituationsWithoutARuleAreRefused :
    refusalOf (step (waiting [] .rdf)) = some .readInProgress ∧
    refusalOf (step (waiting [] .resetInput)) = some .resetDuringRead ∧
    refusalOf (step (driven .timeout)) = some .noReadInProgress ∧
    refusalOf (step (waiting [] .deliver)) = some .noByteWaiting ∧
    refusalOf (step (driven (.dec .request (zeros 38)))) = some .bufferTooLong ∧
    refusalOf (step (driven (.chk (zeros 38) 0))) = some .bufferTooLong ∧
    refusalOf (step (driven (.chk [0x01] 2))) = some .countBeyondBuffer ∧
    refusalOf (step (driven (.enc (.lenExplicit 5)))) = some .notAMessageKind := by decide
theorem witness_StepKeepsTheReaderInvariant : (inFrame [0x05] 5 [0x01] .deliver).Inv ∧
    (nextOf (step (inFrame [0x05] 5 [0x01] .deliver))).isSome = true := by
  simp only [State.Inv, inFrame, State.reset]
  decide
theorem witness_NoStepFaultsUnderTheInvariant : (inFrame ([0x70] ++ zeros 35) 37 [0x70] .deliver).Inv := by
  simp only [State.Inv, inFrame, State.reset]
  decide
/-- Two states in mid-frame that differ in a byte at an offset not stored yet and in the port, and two idle ones that differ
in the target length. -/
theorem witness_UnobservableStateIsNeverRead :
    (inFrame [0x40] 37 [] .timeout).Alike
      { inFrame [0x40] 37 [] .timeout with rbuf := [(0, 0x40), (30, 0xAA)], port := .encoder } ∧
    State.reset.Alike { State.reset with len := 12 } := by
  simp only [State.Alike]
  decide
/-- Partitions 1 and 8 (A4), and each of the five modes with its code. -/
theorem witness_ArmSendsItsCodeAndTheZeroIndexedPartition :
    PseudoOp.expand 0 (.arm 1 .armStay) = some (.actionReq 0x01 0 0 0 0) ∧
    PseudoOp.expand 0 (.arm 8 .armInstant) = some (.actionReq 0x07 7 0 0 0) ∧
    PseudoOp.expand 0 (.arm 8 .arm) = some (.actionReq 0x04 7 0 0 0) ∧
    PseudoOp.expand 0 (.arm 1 .armSleep) = some (.actionReq 0x02 0 0 0 0) ∧
    PseudoOp.expand 0 (.arm 1 .armStayInstant) = some (.actionReq 0x06 0 0 0 0) := by decide

end Sys2Proof.Tests
end

section
/-! The codec's ports at the step: an operation the host drives is the meaning of the message it presents (R10). -/
namespace Sys2Proof.Machine

/-- A buffer that decodes is a full frame (`decode_ok_inv`), so the decoder's port takes it and executes its message. -/
theorem driveDec_of_decode_ok {dir : Direction} {b : List Byte} {i : Instr} (h : decode dir b = .ok i) (s : State) :
    driveDec dir b s = exec i { s with port := .decoder } := by
  obtain ⟨_, hlen, -, -, -⟩ := decode_ok_inv h
  unfold driveDec
  rw [if_neg (by simp [hlen]), h]

/-- The encoder's port takes a message and executes it. -/
theorem driveEnc_of_isMessage {i : Instr} (h : i.isMessage = true) (s : State) :
    driveEnc i s = exec i { s with port := .encoder } :=
  if_pos h

/-- Settles O6: the step takes the input, and the decoder's port executes what the buffer decodes to. -/
theorem stepRunsTheDecodedMessage : Obligations.StepRunsTheDecodedMessage := by
  intro s dir b rest i hin hdec
  calc step s = driveDec dir b (takeInput rest s) := step_cons hin
    _ = exec i { takeInput rest s with port := .decoder } := driveDec_of_decode_ok hdec _

/-- Settles O7: the step takes the input, and the encoder's port executes the message presented. -/
theorem stepRunsTheEncodersMessage : Obligations.StepRunsTheEncodersMessage := by
  intro s i rest hin hmsg
  calc step s = driveEnc i (takeInput rest s) := step_cons hin
    _ = exec i { takeInput rest s with port := .encoder } := driveEnc_of_isMessage hmsg _

end Sys2Proof.Machine
end

section
/-! The codec at the step (R20, R60): what a `CHK`, `ENC` or `DEC` answers is fixed by the input before any state is given. -/
namespace Sys2Proof.Machine

/-- Settles O19: `exec_message`, with `deliverResult` written out. -/
theorem messagesWriteOnlyTheResult : Obligations.MessagesWriteOnlyTheResult :=
  fun _ s hmsg => exec_message hmsg s

/-- At a given port the result of a message is the same in every state. -/
theorem exec_message_at {i : Instr} (h : i.isMessage = true) (p : Port) :
    ∃ r, ∀ s : State, exec i { s with port := p } = .next (deliverResult r { s with port := p }) := by
  obtain ⟨frame, message, hexec⟩ := exec_codec h
  cases p with
  | encoder => exact ⟨.encoded (frame.toBytes 37), fun _ => hexec _⟩
  | decoder => exact ⟨.decoded message, fun _ => hexec _⟩

/-- A codec operation hands one result over, or is refused, alike in every state; besides the result it writes at most the
port. -/
theorem runInput_codec {i : Input} (h : i.isCodec = true) :
    (∃ r, ∀ s, ∃ p, runInput i s = .next (deliverResult r { s with port := p })) ∨
    (∃ e, ∀ s, runInput i s = .refused e) := by
  cases i with
  | chk b k =>
    by_cases hb : b.length > 37
    · exact .inr ⟨.bufferTooLong, fun s => if_pos hb⟩
    · by_cases hk : k > b.length
      · exact .inr ⟨.countBeyondBuffer, fun s => (if_neg hb).trans (if_pos hk)⟩
      · exact .inl ⟨.checksum (chk b k), fun s => ⟨s.port, (if_neg hb).trans (if_neg hk)⟩⟩
  | enc m =>
    by_cases hm : m.isMessage = true
    · obtain ⟨r, hr⟩ := exec_message_at hm .encoder
      exact .inl ⟨r, fun s => ⟨.encoder, (driveEnc_of_isMessage hm s).trans (hr s)⟩⟩
    · exact .inr ⟨.notAMessageKind, fun s => if_neg hm⟩
  | dec dir b =>
    by_cases hb : b.length > 37
    · exact .inr ⟨.bufferTooLong, fun s => if_pos hb⟩
    · cases hd : decode dir b with
      | ok m =>
        obtain ⟨r, hr⟩ := exec_message_at (decode_ok_isMessage hd) .decoder
        exact .inl ⟨r, fun s => ⟨.decoder, (driveDec_of_decode_ok hd s).trans (hr s)⟩⟩
      | err e =>
        refine .inl ⟨.decodeError e, fun s => ⟨.decoder, ?_⟩⟩
        show driveDec dir b s = _
        unfold driveDec
        rw [if_neg hb, hd]
        exact raise_next e _
  | rdf | resetInput | arrive | deliver | timeout | ioError => cases h

/-- Settles O49: by `runInput_codec` the step is the same write of one result in every state with that input. -/
theorem codecOperationsLeaveTheReaderAlone : Obligations.CodecOperationsLeaveTheReaderAlone := by
  intro s t i rest hin hcodec hstep
  rw [step_cons hin] at hstep
  obtain ⟨r, hr⟩ | ⟨e, he⟩ := runInput_codec hcodec
  · obtain ⟨p, hp⟩ := hr (takeInput rest s)
    rw [hp] at hstep
    cases hstep
    refine ⟨rfl, rfl, rfl, rfl, rfl, rfl, rfl, fun s' rest' hin' => ?_⟩
    obtain ⟨p', hp'⟩ := hr (takeInput rest' s')
    exact ⟨_, (step_cons hin').trans hp', rfl⟩
  · rw [he] at hstep
    cases hstep

end Sys2Proof.Machine
end

section
/-! The reader's operations phase by phase: one equation for each phase, or for the two phases of a read in progress. -/
namespace Sys2Proof.Machine

section
variable {s : State}

theorem startRead_of_idle (hp : s.phase = .idle) : startRead s = .next { s with phase := .first, cnt := 0 } := by
  unfold startRead
  rw [hp]

theorem startRead_of_busy (hp : s.phase ≠ .idle) : startRead s = .refused .readInProgress := by
  unfold startRead
  cases hs : s.phase with
  | idle => exact absurd hs hp
  | first | rest => rfl

theorem resetInput_of_idle (hp : s.phase = .idle) : resetInput s = .next { s with rx := [] } := by
  unfold resetInput
  rw [hp]

theorem resetInput_of_busy (hp : s.phase ≠ .idle) : resetInput s = .refused .resetDuringRead := by
  unfold resetInput
  cases hs : s.phase with
  | idle => exact absurd hs hp
  | first | rest => rfl

theorem deliverByte_of_idle (hp : s.phase = .idle) : deliverByte s = .refused .noReadInProgress := by
  unfold deliverByte
  rw [hp]

theorem deliverByte_of_no_byte (hp : s.phase ≠ .idle) (hr : s.rx = []) : deliverByte s = .refused .noByteWaiting := by
  unfold deliverByte
  rw [hr]
  cases hs : s.phase with
  | idle => exact absurd hs hp
  | first | rest => rfl

theorem timedOut_of_idle (hp : s.phase = .idle) : timedOut s = .refused .noReadInProgress := by
  unfold timedOut
  rw [hp]

theorem timedOut_of_first (hp : s.phase = .first) :
    timedOut s = .next (deliverResult .empty { s with phase := .idle }) := by
  unfold timedOut
  rw [hp]

theorem timedOut_of_rest (hp : s.phase = .rest) : timedOut s = presentFrame s.cnt.toNat s := by
  unfold timedOut
  rw [hp]

theorem readFailed_of_idle (hp : s.phase = .idle) : readFailed s = .refused .noReadInProgress := by
  unfold readFailed
  rw [hp]

theorem readFailed_of_busy (hp : s.phase ≠ .idle) :
    readFailed s = .next (deliverResult .transportError (endRead s)) := by
  unfold readFailed
  cases hs : s.phase with
  | idle => exact absurd hs hp
  | first | rest => rfl

end

end Sys2Proof.Machine
end

section
/-! The reader's invariant (R25): it holds at reset, every step keeps it, and under it no step faults. -/
namespace Sys2Proof.Machine

/-- Settles O55: the reset buffer is empty, and no byte is stored. -/
theorem readerInvariantHoldsAtReset : Obligations.ReaderInvariantHoldsAtReset :=
  ⟨reset_rbuf_wf, reset_cnt⟩

section
variable {s : State}

theorem State.Inv.rbuf_wf (h : s.Inv) : s.rbuf.wf = true := h.1

theorem inv_iff_of_idle (hp : s.phase = .idle) : s.Inv ↔ s.rbuf.wf = true ∧ s.cnt = 0 := by
  unfold State.Inv
  rw [hp]

theorem inv_iff_of_first (hp : s.phase = .first) : s.Inv ↔ s.rbuf.wf = true ∧ s.cnt = 0 := by
  unfold State.Inv
  rw [hp]

theorem inv_iff_of_rest (hp : s.phase = .rest) :
    s.Inv ↔ s.rbuf.wf = true ∧ 1 ≤ s.cnt.toNat ∧ s.cnt.toNat < s.len.toNat ∧ 5 ≤ s.len.toNat ∧ s.len.toNat ≤ 37 ∧
      s.len = frameLen (s.rbuf.read 0) := by
  unfold State.Inv
  rw [hp]

/-- `FrameLen` is 5 to 37 (R194). -/
theorem frameLen_bounds (x : Byte) : 5 ≤ (frameLen x).toNat ∧ (frameLen x).toNat ≤ 37 := by
  rw [frameLen_toNat]
  split <;> omega

/-- The outcomes the invariant allows: a next state meets it, and there is no fault. -/
def KeepsInv : Host.Outcome State Fault Refusal → Prop
  | .next t => t.Inv
  | .fault _ => False
  | .refused _ => True

/-- Whatever the phase was, a reader back in Idle meets the invariant if its buffer is in canonical form. -/
theorem inv_endRead (hw : s.rbuf.wf = true) : (endRead s).Inv :=
  (inv_iff_of_idle (endRead_phase s)).mpr ⟨hw, endRead_cnt s⟩

/-- A first byte opens phase Rest with one byte stored and its `FrameLen` as target (R192). -/
theorem keepsInv_firstByte {x : Byte} (hp : s.phase = .first) (hw : s.rbuf.wf = true) :
    KeepsInv (exec (decodeFirstByte x) s) := by
  rw [exec_decodeFirstByte x hp]
  obtain ⟨h5, h37⟩ := frameLen_bounds x
  refine (inv_iff_of_rest rfl).mpr ⟨Memory.wf_put hw (by decide), le_rfl, ?_, h5, h37, ?_⟩
  · show 1 < (frameLen x).toNat
    omega
  · simp

theorem keepsInv_presentFrame {n : Nat} (hw : s.rbuf.wf = true) (hn : n ≤ 37) : KeepsInv (presentFrame n s) := by
  obtain ⟨-, e⟩ | ⟨hlt, -⟩ := presentFrame_cases (n := n) (s := s)
  · rw [e]
    exact inv_endRead hw
  · omega

/-- A further byte ends the read (R196), or stands at an offset between the first byte and the target (R195). -/
theorem keepsInv_furtherByte {x : Byte} (hp : s.phase = .rest) (h : s.Inv) : KeepsInv (furtherByte x s) := by
  obtain ⟨hw, h1, hlt, h5, h37, hlen⟩ := (inv_iff_of_rest hp).mp h
  obtain ⟨hc, -, e⟩ | ⟨hc, hne, e⟩ | ⟨hc, -⟩ := furtherByte_cases (x := x) (s := s)
  · rw [e]
    exact inv_endRead (Memory.wf_put hw hc)
  · rw [e]
    have hcnt : (s.cnt + 1).toNat = s.cnt.toNat + 1 := BitVec.toNat_add_of_lt (by show _ + 1 < 2 ^ 6; omega)
    have hroom : (s.cnt + 1).toNat ≠ s.len.toNat := fun he => hne (BitVec.eq_of_toNat_eq he)
    refine (inv_iff_of_rest (s := storeByte x s) hp).mpr ⟨Memory.wf_put hw hc, ?_, ?_, h5, h37, ?_⟩
    · rw [storeByte_cnt]
      omega
    · rw [storeByte_cnt, storeByte_len]
      omega
    · rw [storeByte_rbuf, Memory.read_put, if_neg (by omega)]
      exact hlen
  · omega

theorem keepsInv_deliverByte (h : s.Inv) : KeepsInv (deliverByte s) := by
  obtain ⟨-, e⟩ | ⟨-, -, e⟩ | ⟨x, r, hp, -, e⟩ | ⟨x, r, hp, -, e⟩ := deliverByte_cases (s := s)
  · rw [e]
    trivial
  · rw [e]
    trivial
  · rw [e]
    exact keepsInv_firstByte hp h.rbuf_wf
  · rw [e]
    exact keepsInv_furtherByte hp h

theorem keepsInv_startRead (h : s.Inv) : KeepsInv (startRead s) := by
  by_cases hp : s.phase = .idle
  · rw [startRead_of_idle hp]
    exact (inv_iff_of_first rfl).mpr ⟨h.rbuf_wf, rfl⟩
  · rw [startRead_of_busy hp]
    trivial

theorem keepsInv_timedOut (h : s.Inv) : KeepsInv (timedOut s) := by
  cases hp : s.phase with
  | idle =>
    rw [timedOut_of_idle hp]
    trivial
  | first =>
    rw [timedOut_of_first hp]
    exact (inv_iff_of_idle rfl).mpr ((inv_iff_of_first hp).mp h)
  | rest =>
    obtain ⟨hw, -, hlt, -, h37, -⟩ := (inv_iff_of_rest hp).mp h
    rw [timedOut_of_rest hp]
    exact keepsInv_presentFrame hw (by omega)

theorem keepsInv_readFailed (h : s.Inv) : KeepsInv (readFailed s) := by
  by_cases hp : s.phase = .idle
  · rw [readFailed_of_idle hp]
    trivial
  · rw [readFailed_of_busy hp]
    exact inv_endRead h.rbuf_wf

theorem keepsInv_resetInput (h : s.Inv) : KeepsInv (resetInput s) := by
  by_cases hp : s.phase = .idle
  · rw [resetInput_of_idle hp]
    exact h
  · rw [resetInput_of_busy hp]
    trivial

/-- The invariant speaks of none of the fields a codec operation writes. -/
theorem keepsInv_codec {i : Input} (hi : i.isCodec = true) (h : s.Inv) : KeepsInv (runInput i s) := by
  obtain ⟨r, hr⟩ | ⟨e, he⟩ := runInput_codec hi
  · obtain ⟨p, hp⟩ := hr s
    rw [hp]
    exact h
  · rw [he]
    trivial

theorem keepsInv_runInput (h : s.Inv) (i : Input) : KeepsInv (runInput i s) := by
  cases i with
  | chk b k => exact keepsInv_codec rfl h
  | enc m => exact keepsInv_codec rfl h
  | dec dir b => exact keepsInv_codec rfl h
  | rdf => exact keepsInv_startRead h
  | resetInput => exact keepsInv_resetInput h
  | arrive x => exact h
  | deliver => exact keepsInv_deliverByte h
  | timeout => exact keepsInv_timedOut h
  | ioError => exact keepsInv_readFailed h

theorem keepsInv_step (h : s.Inv) : KeepsInv (step s) := by
  cases hin : s.inputs with
  | nil =>
    rw [step_nil hin]
    exact h
  | cons i rest =>
    rw [step_cons hin]
    exact keepsInv_runInput (s := takeInput rest s) h i

end

/-- Settles O54: the next state of an outcome `keepsInv_step` allows. -/
theorem stepKeepsTheReaderInvariant : Obligations.StepKeepsTheReaderInvariant := by
  intro s t hinv hstep
  have hkeeps := keepsInv_step hinv
  rwa [hstep] at hkeeps

/-- Settles O56: `keepsInv_step` allows no fault. -/
theorem noStepFaultsUnderTheInvariant : Obligations.NoStepFaultsUnderTheInvariant := by
  intro s f hinv hstep
  have hkeeps := keepsInv_step hinv
  rwa [hstep] at hkeeps

end Sys2Proof.Machine
end

section
/-! What a host cannot tell apart (R32): each operation takes alike states to alike outcomes. -/
namespace Sys2Proof.Machine

section
variable {s t : State}

theorem State.Alike.phase_eq (h : s.Alike t) : s.phase = t.phase := h.1

theorem State.Alike.cnt_eq (h : s.Alike t) : s.cnt = t.cnt := h.2.1

theorem State.Alike.rx_eq (h : s.Alike t) : s.rx = t.rx := by
  obtain ⟨-, -, -, -, hrx, -, -⟩ := h
  exact hrx

theorem State.Alike.inputs_eq (h : s.Alike t) : s.inputs = t.inputs := by
  obtain ⟨-, -, -, -, -, hinputs, -⟩ := h
  exact hinputs

theorem alike_takeInput (rest : List Input) (h : s.Alike t) : (takeInput rest s).Alike (takeInput rest t) := by
  obtain ⟨hphase, hcnt, hlen, hrbuf, hrx, -, -⟩ := h
  exact ⟨hphase, hcnt, hlen, hrbuf, hrx, rfl, rfl⟩

theorem alike_wait (h : s.Alike t) : (wait s).Alike (wait t) := by
  obtain ⟨hphase, hcnt, hlen, hrbuf, hrx, hinputs, -⟩ := h
  exact ⟨hphase, hcnt, hlen, hrbuf, hrx, hinputs, rfl⟩

theorem alike_deliverResult (r : Result) (h : s.Alike t) : (deliverResult r s).Alike (deliverResult r t) := by
  obtain ⟨hphase, hcnt, hlen, hrbuf, hrx, hinputs, -⟩ := h
  exact ⟨hphase, hcnt, hlen, hrbuf, hrx, hinputs, rfl⟩

theorem alike_withPort (p q : Port) (h : s.Alike t) : { s with port := p }.Alike { t with port := q } := h

theorem alike_withRx (rx : List Byte) (h : s.Alike t) : { s with rx := rx }.Alike { t with rx := rx } := by
  obtain ⟨hphase, hcnt, hlen, hrbuf, -, hinputs, hresult⟩ := h
  exact ⟨hphase, hcnt, hlen, hrbuf, rfl, hinputs, hresult⟩

/-- With no byte stored and outside phase Rest nothing of `len` and `rbuf` is observable. -/
theorem alike_withPhase_cnt_zero {ph : Phase} (hph : ph ≠ .rest) (h : s.Alike t) :
    { s with phase := ph, cnt := 0 }.Alike { t with phase := ph, cnt := 0 } := by
  obtain ⟨-, -, -, -, hrx, hinputs, hresult⟩ := h
  exact ⟨rfl, rfl, fun hrest => absurd hrest hph, fun i hi => absurd hi (Nat.not_lt_zero i), hrx, hinputs, hresult⟩

theorem alike_endRead (h : s.Alike t) : (endRead s).Alike (endRead t) :=
  alike_withPhase_cnt_zero (by decide) h

theorem alike_withPhase_idle (h : s.Alike t) : { s with phase := .idle }.Alike { t with phase := .idle } := by
  obtain ⟨-, hcnt, -, hrbuf, hrx, hinputs, hresult⟩ := h
  exact ⟨rfl, hcnt, nofun, hrbuf, hrx, hinputs, hresult⟩

/-- The byte stored is the one offset that becomes observable. -/
theorem alike_storeByte (x : Byte) (h : s.Alike t) : (storeByte x s).Alike (storeByte x t) := by
  obtain ⟨hphase, hcnt, hlen, hrbuf, hrx, hinputs, hresult⟩ := h
  refine ⟨hphase, congrArg (· + 1) hcnt, hlen, fun i hi => ?_, hrx, hinputs, hresult⟩
  rw [storeByte_rbuf, storeByte_rbuf, ← hcnt, Memory.read_put, Memory.read_put]
  split
  · rfl
  · have hle : (s.cnt + 1).toNat ≤ s.cnt.toNat + 1 := by
      rw [BitVec.toNat_add]
      exact Nat.mod_le _ _
    rw [storeByte_cnt] at hi
    exact hrbuf i (by omega)

/-- The first byte sets `len`, `cnt` and the one observable offset, so nothing older is left to see (R192). -/
theorem outcomeAlike_firstByte (x : Byte) (hp : s.phase = .first) (h : s.Alike t) :
    OutcomeAlike (exec (decodeFirstByte x) s) (exec (decodeFirstByte x) t) := by
  obtain ⟨hphase, -, -, -, hrx, hinputs, hresult⟩ := h
  rw [exec_decodeFirstByte x hp, exec_decodeFirstByte x (hphase ▸ hp)]
  refine ⟨rfl, rfl, fun _ => rfl, fun i hi => ?_, hrx, hinputs, hresult⟩
  have hi0 : i = 0 := Nat.lt_one_iff.mp hi
  simp [hi0]

/-- The frame presented ends where the bytes stored end. -/
theorem outcomeAlike_presentFrame (h : s.Alike t) :
    OutcomeAlike (presentFrame s.cnt.toNat s) (presentFrame s.cnt.toNat t) := by
  have hbytes : s.rbuf.toBytes s.cnt.toNat = t.rbuf.toBytes s.cnt.toNat := by
    obtain ⟨-, -, -, hrbuf, -, -, -⟩ := h
    exact Memory.toBytes_congr hrbuf
  unfold presentFrame
  rw [hbytes]
  split
  · exact alike_deliverResult _ (alike_endRead h)
  · rfl

/-- The frame is presented when `cnt` has come to `len`, so it too ends where the bytes stored end (R196). -/
theorem outcomeAlike_furtherByte (x : Byte) (hp : s.phase = .rest) (h : s.Alike t) :
    OutcomeAlike (furtherByte x s) (furtherByte x t) := by
  have hstored := alike_storeByte x h
  obtain ⟨-, hcnt, hlen, -, -, -, -⟩ := h
  unfold furtherByte
  rw [storeByte_cnt t, ← hcnt, ← hlen hp, ← storeByte_cnt s x]
  split
  · split
    · next hfull =>
      rw [← hfull]
      exact outcomeAlike_presentFrame hstored
    · exact hstored
  · rfl

theorem outcomeAlike_deliverByte (h : s.Alike t) : OutcomeAlike (deliverByte s) (deliverByte t) := by
  obtain ⟨hp, e⟩ | ⟨hp, hr, e⟩ | ⟨x, r, hp, hr, e⟩ | ⟨x, r, hp, hr, e⟩ := deliverByte_cases (s := s)
  · rw [e, deliverByte_of_idle (h.phase_eq ▸ hp)]
    rfl
  · rw [e, deliverByte_of_no_byte (h.phase_eq ▸ hp) (h.rx_eq ▸ hr)]
    rfl
  · rw [e, deliverByte_first (h.phase_eq ▸ hp) (h.rx_eq ▸ hr)]
    exact outcomeAlike_firstByte x hp (alike_withRx r h)
  · rw [e, deliverByte_rest (h.phase_eq ▸ hp) (h.rx_eq ▸ hr)]
    exact outcomeAlike_furtherByte x hp (alike_withRx r h)

theorem outcomeAlike_startRead (h : s.Alike t) : OutcomeAlike (startRead s) (startRead t) := by
  by_cases hp : s.phase = .idle
  · rw [startRead_of_idle hp, startRead_of_idle (h.phase_eq ▸ hp)]
    exact alike_withPhase_cnt_zero (by decide) h
  · rw [startRead_of_busy hp, startRead_of_busy (h.phase_eq ▸ hp)]
    rfl

theorem outcomeAlike_timedOut (h : s.Alike t) : OutcomeAlike (timedOut s) (timedOut t) := by
  cases hp : s.phase with
  | idle =>
    rw [timedOut_of_idle hp, timedOut_of_idle (h.phase_eq ▸ hp)]
    rfl
  | first =>
    rw [timedOut_of_first hp, timedOut_of_first (h.phase_eq ▸ hp)]
    exact alike_deliverResult .empty (alike_withPhase_idle h)
  | rest =>
    rw [timedOut_of_rest hp, timedOut_of_rest (h.phase_eq ▸ hp), ← h.cnt_eq]
    exact outcomeAlike_presentFrame h

theorem outcomeAlike_readFailed (h : s.Alike t) : OutcomeAlike (readFailed s) (readFailed t) := by
  by_cases hp : s.phase = .idle
  · rw [readFailed_of_idle hp, readFailed_of_idle (h.phase_eq ▸ hp)]
    rfl
  · rw [readFailed_of_busy hp, readFailed_of_busy (h.phase_eq ▸ hp)]
    exact alike_deliverResult .transportError (alike_endRead h)

theorem outcomeAlike_resetInput (h : s.Alike t) : OutcomeAlike (resetInput s) (resetInput t) := by
  by_cases hp : s.phase = .idle
  · rw [resetInput_of_idle hp, resetInput_of_idle (h.phase_eq ▸ hp)]
    exact alike_withRx [] h
  · rw [resetInput_of_busy hp, resetInput_of_busy (h.phase_eq ▸ hp)]
    rfl

theorem outcomeAlike_byteArrives (x : Byte) (h : s.Alike t) : OutcomeAlike (byteArrives x s) (byteArrives x t) := by
  unfold byteArrives
  rw [← h.rx_eq]
  exact alike_withRx (s.rx ++ [x]) h

/-- A codec operation hands over the same result whatever the reader holds. -/
theorem outcomeAlike_codec {i : Input} (hi : i.isCodec = true) (h : s.Alike t) :
    OutcomeAlike (runInput i s) (runInput i t) := by
  obtain ⟨r, hr⟩ | ⟨e, he⟩ := runInput_codec hi
  · obtain ⟨p, hp⟩ := hr s
    obtain ⟨q, hq⟩ := hr t
    rw [hp, hq]
    exact alike_deliverResult r (alike_withPort p q h)
  · rw [he, he]
    rfl

theorem outcomeAlike_runInput (h : s.Alike t) (i : Input) : OutcomeAlike (runInput i s) (runInput i t) := by
  cases i with
  | chk b k => exact outcomeAlike_codec rfl h
  | enc m => exact outcomeAlike_codec rfl h
  | dec dir b => exact outcomeAlike_codec rfl h
  | rdf => exact outcomeAlike_startRead h
  | resetInput => exact outcomeAlike_resetInput h
  | arrive x => exact outcomeAlike_byteArrives x h
  | deliver => exact outcomeAlike_deliverByte h
  | timeout => exact outcomeAlike_timedOut h
  | ioError => exact outcomeAlike_readFailed h

end

/-- Settles O57: alike states have the same inputs, so they wait together or run the same one. -/
theorem unobservableStateIsNeverRead : Obligations.UnobservableStateIsNeverRead := by
  intro s t h
  cases hin : s.inputs with
  | nil =>
    rw [step_nil hin, step_nil (h.inputs_eq ▸ hin)]
    exact alike_wait h
  | cons i rest =>
    rw [step_cons hin, step_cons (h.inputs_eq ▸ hin)]
    exact outcomeAlike_runInput (alike_takeInput rest h) i

end Sys2Proof.Machine
end

section
/-! How the waiting bytes change from outside a read: a byte arrives, or the host resets the input (R63, R65). -/
namespace Sys2Proof.Machine

section
variable {s : State} {rest : List Input}

/-- R63 (b), D28: no phase stands in the way of an arriving byte. -/
theorem step_arrive {x : Byte} (hin : s.inputs = .arrive x :: rest) :
    step s = .next { s with inputs := rest, rx := s.rx ++ [x], result := none } := by
  rw [step_cons hin]
  rfl

/-- R65, D29: in Idle the reset goes through, see `resetInput_of_busy` for a read in progress. -/
theorem step_resetInput_of_idle (hin : s.inputs = .resetInput :: rest) (hp : s.phase = .idle) :
    step s = .next { s with inputs := rest, rx := [], result := none } := by
  rw [step_cons hin]
  exact resetInput_of_idle (s := takeInput rest s) hp

end

/-- Settles O48: the step of each of the two inputs. -/
theorem streamGrowsAtItsEndAndIsClearedByTheHost : Obligations.StreamGrowsAtItsEndAndIsClearedByTheHost := by
  intro s rest
  exact ⟨fun _ hin => step_arrive hin, step_resetInput_of_idle⟩

end Sys2Proof.Machine
end

section
/-! The host's `arm` (R110): the message it expands to, and the frame the encoder builds of it. -/
namespace Sys2Proof.Machine

/-- R148: the bytes of an ACTION_REQ in offset order. -/
theorem encode_actionReq (action argument sourceId userId34 userId35 : Byte) :
    encode (.actionReq action argument sourceId userId34 userId35) =
      withChecksum ([0x40, 0, 0, 0, action, argument] ++ zeros 27 ++ [sourceId, userId34, userId35]) := by
  show (Memory.finish _).toBytes 37 = _
  rw [Memory.toBytes_finish]
  congr 1
  simp [Memory.toBytes, List.range_succ, zeros, List.replicate_succ]

/-- The caller's check of its arguments passes for the partitions 1 to 8 and the five arm modes. -/
theorem expand_arm {partition : Nat} {mode : ActionName} (src : Byte) (h1 : 1 ≤ partition) (h8 : partition ≤ 8)
    (hmode : mode.isArmMode = true) :
    PseudoOp.expand src (.arm partition mode) = some (actionCommand src mode partition) :=
  if_pos ⟨h1, h8, hmode⟩

/-- The five arm modes with their codes (R100). -/
def armModeCodes : List (ActionName × Byte) :=
  [(.arm, 0x04), (.armStay, 0x01), (.armSleep, 0x02), (.armInstant, 0x07), (.armStayInstant, 0x06)]

theorem code_of_mem_armModeCodes {mode : ActionName} {code : Byte} (h : (mode, code) ∈ armModeCodes) :
    mode.isArmMode = true ∧ mode.code = code := by
  have table : ∀ entry ∈ armModeCodes, entry.1.isArmMode = true ∧ entry.1.code = entry.2 := by decide
  exact table (mode, code) h

/-- Settles O58: the mode is one of the five, so the call expands, and its frame is that of `encode_actionReq`. -/
theorem armSendsItsCodeAndTheZeroIndexedPartition : Obligations.ArmSendsItsCodeAndTheZeroIndexedPartition := by
  intro src partition mode code h1 h8 hmem
  obtain ⟨hmode, rfl⟩ := code_of_mem_armModeCodes hmem
  exact ⟨actionCommand src mode partition, expand_arm src h1 h8 hmode, encode_actionReq _ _ _ _ _⟩

end Sys2Proof.Machine
end

section
/-! The selection is the dispatch table (R82): a full mask asks for one byte, the mask 0xF0 for a range of sixteen. -/
namespace Sys2Proof

/-- The mask 0xF0 asks for the sixteen bytes from the match upwards. -/
theorem and_highNibble_eq_iff {base : Byte} (hbase : base.toNat % 16 = 0) (cmd : Byte) :
    cmd &&& 0xF0 = base ↔ base.toNat ≤ cmd.toNat ∧ cmd.toNat < base.toNat + 16 := by
  have hand : (cmd &&& 0xF0).toNat = cmd.toNat / 16 * 16 := by
    revert cmd
    decide
  rw [← BitVec.toNat_inj, hand]
  omega

/-- Rows of one direction do not overlap: checked row by row and byte by byte, the selection answers the row that fits. -/
theorem select_of_row : ∀ row ∈ kindRows, ∀ cmd : Byte,
    cmd &&& row.mask = row.matchBits → select row.dir cmd = some row.kind := by
  decide

/-- Every branch of the selection is a row of the table. -/
theorem row_of_select {dir : Direction} {cmd : Byte} {k : Kind} (h : select dir cmd = some k) :
    ∃ row ∈ kindRows, row.kind = k ∧ row.dir = dir ∧ cmd &&& row.mask = row.matchBits := by
  cases dir with
  | request =>
    simp only [select] at h
    split_ifs at h with h72 h00 h40 h50 <;> cases h
    · exact ⟨⟨.initiateReq, .request, 0x72, 0xFF⟩, by decide, rfl, rfl, by rw [h72]; rfl⟩
    · exact ⟨⟨.initializeReq, .request, 0x00, 0xFF⟩, by decide, rfl, rfl, by rw [h00]; rfl⟩
    · exact ⟨⟨.actionReq, .request, 0x40, 0xFF⟩, by decide, rfl, rfl, by rw [h40]; rfl⟩
    · exact ⟨⟨.eepromReq, .request, 0x50, 0xFF⟩, by decide, rfl, rfl, by rw [h50]; rfl⟩
  | response =>
    simp only [select] at h
    split_ifs at h with h72 h10 h70 h4x h5x hEx <;> cases h
    · exact ⟨⟨.initiateResp, .response, 0x72, 0xFF⟩, by decide, rfl, rfl, by rw [h72]; rfl⟩
    · exact ⟨⟨.initializeOk, .response, 0x10, 0xFF⟩, by decide, rfl, rfl, by rw [h10]; rfl⟩
    · exact ⟨⟨.initializeFail, .response, 0x70, 0xFF⟩, by decide, rfl, rfl, by rw [h70]; rfl⟩
    · exact ⟨⟨.actionResp, .response, 0x40, 0xF0⟩, by decide, rfl, rfl, (and_highNibble_eq_iff rfl cmd).mpr h4x⟩
    · exact ⟨⟨.eepromResp, .response, 0x50, 0xF0⟩, by decide, rfl, rfl, (and_highNibble_eq_iff rfl cmd).mpr h5x⟩
    · exact ⟨⟨.liveEvent, .response, 0xE0, 0xF0⟩, by decide, rfl, rfl, (and_highNibble_eq_iff rfl cmd).mpr hEx⟩

/-- Settles O4: each direction of the iff is one of the two lemmas above. -/
theorem selectionIsTheDispatchTable : Obligations.SelectionIsTheDispatchTable := by
  intro dir cmd k
  constructor
  · exact row_of_select
  · rintro ⟨row, hrow, rfl, rfl, hcmd⟩
    exact select_of_row row hrow cmd hcmd

end Sys2Proof
end

section
/-! The first byte of a frame (R98, R192): its class, and what the class does in phase First. -/
namespace Sys2Proof

@[simp] theorem wellFormed_lenImplicit (b : Byte) : (Instr.lenImplicit b).WellFormed = true ↔ b.toNat ≤ 4 := by
  simp [Instr.WellFormed]

@[simp] theorem wellFormed_lenExplicit (b : Byte) :
    (Instr.lenExplicit b).WellFormed = true ↔ 5 ≤ b.toNat ∧ b.toNat ≤ 36 := by
  simp [Instr.WellFormed]

@[simp] theorem wellFormed_lenClamped (b : Byte) : (Instr.lenClamped b).WellFormed = true ↔ 37 ≤ b.toNat := by
  simp [Instr.WellFormed]

/-- The class a byte decodes to has the byte in its range. -/
theorem decodeFirstByte_wellFormed (x : Byte) : (decodeFirstByte x).WellFormed = true := by
  unfold decodeFirstByte
  split
  · exact (wellFormed_lenImplicit x).mpr ‹_›
  · split
    · exact (wellFormed_lenExplicit x).mpr (by omega)
    · exact (wellFormed_lenClamped x).mpr (by omega)

/-- The ranges of the classes are disjoint: the class whose range holds the byte is the one it decodes to. -/
theorem decodeFirstByte_of_encode {i : Instr} {x : Byte} (hclass : i.isMessage = false) (hwf : i.WellFormed = true)
    (henc : encode i = [x]) : decodeFirstByte x = i := by
  cases i with
  | lenImplicit b =>
    cases henc
    exact if_pos ((wellFormed_lenImplicit x).mp hwf)
  | lenExplicit b =>
    cases henc
    obtain ⟨h5, h36⟩ := (wellFormed_lenExplicit x).mp hwf
    exact (if_neg (by omega)).trans (if_pos h36)
  | lenClamped b =>
    cases henc
    have h37 := (wellFormed_lenClamped x).mp hwf
    exact (if_neg (by omega)).trans (if_neg (by omega))
  | _ => cases hclass

/-- A byte decodes to a class instruction encoded as it exactly when that instruction is well-formed. -/
theorem decodeFirstByte_eq_iff {i : Instr} {x : Byte} (hclass : i.isMessage = false) (henc : encode i = [x]) :
    decodeFirstByte x = i ↔ i.WellFormed = true :=
  ⟨fun h => h ▸ decodeFirstByte_wellFormed x, fun hwf => decodeFirstByte_of_encode hclass hwf henc⟩

/-- Settles O60: each class is well-formed exactly in its range. -/
theorem firstByteDecodesToItsClass : Obligations.FirstByteDecodesToItsClass := by
  intro x
  exact ⟨(decodeFirstByte_eq_iff rfl rfl).trans (wellFormed_lenImplicit x),
    (decodeFirstByte_eq_iff rfl rfl).trans (wellFormed_lenExplicit x),
    (decodeFirstByte_eq_iff rfl rfl).trans (wellFormed_lenClamped x),
    fun _ => decodeFirstByte_of_encode⟩

end Sys2Proof

namespace Sys2Proof.Machine

/-- Settles O8: the step takes the input, and the delivery takes the byte from the stream. -/
theorem stepRunsTheFirstByteInstruction : Obligations.StepRunsTheFirstByteInstruction := by
  intro s x r rest hin hp hrx
  calc step s = deliverByte (takeInput rest s) := step_cons hin
    _ = exec (decodeFirstByte x) { takeInput rest s with rx := r } := deliverByte_first hp hrx

/-- R192: the first byte stands at offset 0, the target is set, and nothing else changes. -/
theorem firstByte_of_first {s : State} (x : Byte) (target : Count) (hp : s.phase = .first) :
    ∃ t, firstByte x target s = .next t ∧ t.phase = .rest ∧ t.cnt = 1 ∧ t.len = target ∧ t.rbuf.read 0 = x ∧
      (∀ a, a ≠ 0 → t.rbuf.read a = s.rbuf.read a) ∧
      t.rx = s.rx ∧ t.inputs = s.inputs ∧ t.port = s.port ∧ t.result = s.result := by
  obtain ⟨-, e⟩ | ⟨hne, -⟩ := firstByte_cases (x := x) (target := target) (s := s)
  · exact ⟨_, e, rfl, rfl, rfl, by simp, fun a ha => by simp [ha], rfl, rfl, rfl, rfl⟩
  · exact absurd hp hne

theorem exec_lenImplicit (x : Byte) (s : State) : exec (.lenImplicit x) s = firstByte x 37 s := rfl

theorem exec_lenExplicit (x : Byte) (s : State) : exec (.lenExplicit x) s = firstByte x (x.setWidth 6) s := rfl

theorem exec_lenClamped (x : Byte) (s : State) : exec (.lenClamped x) s = firstByte x 37 s := rfl

/-- Settles O37: `firstByte_of_first` at the target 37. -/
theorem lenImplicitAimsFor37 : Obligations.LenImplicitAimsFor37 := by
  intro x s _ hp
  rw [exec_lenImplicit]
  exact firstByte_of_first x 37 hp

/-- Settles O38: a byte up to 36 fits the 6 bits of `len`. -/
theorem lenExplicitAimsForTheByte : Obligations.LenExplicitAimsForTheByte := by
  intro x s _ h36 hp
  obtain ⟨t, hexec, hphase, hcnt, hlen, hframe⟩ := firstByte_of_first x (x.setWidth 6) hp
  have hfits : (x.setWidth 6).toNat = x.toNat := by
    rw [BitVec.toNat_setWidth]
    exact Nat.mod_eq_of_lt (by omega)
  rw [exec_lenExplicit]
  exact ⟨t, hexec, hphase, hcnt, hlen ▸ hfits, hframe⟩

/-- Settles O39: `firstByte_of_first` at the target 37, where an explicit length is clamped. -/
theorem lenClampedAimsFor37 : Obligations.LenClampedAimsFor37 := by
  intro x s _ hp
  rw [exec_lenClamped]
  exact firstByte_of_first x 37 hp

end Sys2Proof.Machine
end

section
/-! The checksum as a sum of bytes that wraps (R130, R131), and what a change of one covered byte does to it (R134). -/
namespace Sys2Proof

/-- Reducing the whole sum mod 256 is the same as wrapping at each addition. -/
theorem ofNat_sum_toNat (l : List Byte) : BitVec.ofNat 8 (l.map BitVec.toNat).sum = l.sum := by
  induction l with
  | nil => rfl
  | cons x xs ih => simp [BitVec.ofNat_add, ih]

theorem chk_eq_sum (b : List Byte) (k : Nat) : chk b k = (b.take k).sum := ofNat_sum_toNat _

theorem toNat_chk (b : List Byte) (k : Nat) : (chk b k).toNat = ((b.take k).map BitVec.toNat).sum % 256 :=
  BitVec.toNat_ofNat _ _

/-- Settles O35: the register's fold is the sum of bytes that `chk_eq_sum` names. -/
theorem wrappingAccumulatorIsTheChecksum : Obligations.WrappingAccumulatorIsTheChecksum := by
  intro b k
  calc chkAccumulator b k = (b.take k).sum := List.sum_eq_foldl.symm
    _ = chk b k := (chk_eq_sum b k).symm

theorem byteAt_set_self {b : List Byte} {off : Nat} (v : Byte) (h : off < b.length) : byteAt (b.set off v) off = v := by
  simp [byteAt, List.getD, h]

theorem byteAt_set_ne {b : List Byte} {off i : Nat} (v : Byte) (h : off ≠ i) : byteAt (b.set off v) i = byteAt b i := by
  simp [byteAt, List.getD, h]

/-- A change of one covered byte moves the checksum by the difference of the two bytes. -/
theorem chk_set {b : List Byte} {k off : Nat} (v : Byte) (hoff : off < k) (hk : k ≤ b.length) :
    chk (b.set off v) k = chk b k + (-byteAt b off + v) := by
  have hcovered : off < (b.take k).length := by
    rw [List.length_take]
    omega
  have hbyte : (b.take k)[off] = byteAt b off := by
    simp [byteAt, List.getD, Nat.lt_of_lt_of_le hoff hk]
  rw [chk_eq_sum, chk_eq_sum, List.take_set, List.sum_set', dif_pos hcovered, hbyte]

/-- R134: a changed covered byte always changes the checksum. -/
theorem chk_set_ne {b : List Byte} {k off : Nat} {v : Byte} (hoff : off < k) (hk : k ≤ b.length)
    (hv : v ≠ byteAt b off) : chk (b.set off v) k ≠ chk b k := by
  rw [chk_set v hoff hk]
  intro h
  exact hv (neg_add_eq_zero.mp (add_eq_left.mp h)).symm

theorem decode_of_unknown {dir : Direction} {b : List Byte} (hn : 2 ≤ b.length)
    (hu : unknownCommand dir (byteAt b 0)) : decode dir b = .err .unknownCommand := by
  unfold decode
  rw [if_neg (Nat.not_lt.mpr hn), (select_none_iff dir _).mpr hu]

theorem decode_of_unsealed {dir : Direction} {b : List Byte} (hn : b.length = 37)
    (hu : ¬unknownCommand dir (byteAt b 0)) (hc : byteAt b 36 ≠ chk b 36) :
    decode dir b = .err .checksumMismatch := by
  obtain ⟨k, hk⟩ := Option.ne_none_iff_exists'.mp (mt (select_none_iff dir (byteAt b 0)).mp hu)
  unfold decode
  rw [hk]
  simp [hn, hc]

/-- Settles O36: the changed frame is no longer sealed (`chk_set_ne`), and only a changed command byte can be unknown. -/
theorem oneChangedByteNeverDecodes : Obligations.OneChangedByteNeverDecodes := by
  intro dir b i off v hdec hoff hv
  obtain ⟨k, hn, hk, hc, -⟩ := decode_ok_inv hdec
  have hn' : (b.set off v).length = 37 := List.length_set.trans hn
  constructor
  · rintro ⟨rfl, hu⟩
    refine decode_of_unknown (by omega) ?_
    rwa [byteAt_set_self v (by omega)]
  · intro hknown
    refine decode_of_unsealed hn' ?_ ?_
    · by_cases h0 : off = 0
      · subst h0
        rw [byteAt_set_self v (by omega)]
        exact fun hu => hknown ⟨rfl, hu⟩
      · rw [byteAt_set_ne v h0, ← select_none_iff, hk]
        exact Option.some_ne_none k
    · rw [byteAt_set_ne v (by omega), hc]
      exact (chk_set_ne hoff (by omega) hv).symm

end Sys2Proof

namespace Sys2Proof.Machine

/-- The port takes a buffer that it holds and a count within it (R57). -/
theorem driveChk_of_le {b : List Byte} {k : Nat} (hb : b.length ≤ 37) (hk : k ≤ b.length) (s : State) :
    driveChk b k s = .next (deliverResult (.checksum (chk b k)) s) :=
  (if_neg (Nat.not_lt.mpr hb)).trans (if_neg (Nat.not_lt.mpr hk))

/-- Settles O34: the port hands over `chk b k`, whose value is `toNat_chk`. -/
theorem chkIsTheSumMod256 : Obligations.ChkIsTheSumMod256 := by
  intro s b k rest hin hb hk
  refine ⟨chk b k, toNat_chk b k, ?_⟩
  calc step s = driveChk b k (takeInput rest s) := step_cons hin
    _ = .next (deliverResult (.checksum (chk b k)) (takeInput rest s)) := driveChk_of_le hb hk _

end Sys2Proof.Machine
end

section
/-! The bytes of every encoded frame in offset order (R143 to R152): each write of a layout edits the list of the buffer's bytes,
and the edits are made on the 36 zeros a frame starts from. -/
namespace Sys2Proof

/-- The bytes of a buffer with nothing listed (R22). -/
@[simp] theorem Memory.toBytes_empty (n : Nat) : Memory.empty.toBytes n = zeros n :=
  List.eq_replicate_iff.mpr ⟨Memory.length_toBytes _ n, by simp [Memory.toBytes, Memory.read_empty]⟩

@[simp] theorem Memory.toBytes_put (m : Memory) (a n : Nat) (v : Byte) :
    (m.put a v).toBytes n = (m.toBytes n).set a v := by
  refine List.ext_getElem (by simp) fun i _ _ => ?_
  simp [Memory.toBytes, List.getElem_set, eq_comm]

/-- The high byte stands at the lower offset (R53). -/
@[simp] theorem Memory.toBytes_putU16be (m : Memory) (off n : Nat) (v : Half) :
    (m.putU16be off v).toBytes n =
      ((m.toBytes n).set off (BitVec.ofNat 8 (v.toNat / 256))).set (off + 1) (BitVec.ofNat 8 (v.toNat % 256)) := by
  rw [Memory.putU16be, Memory.toBytes_put, Memory.toBytes_put, highByte_eq, lowByte_eq]

/-- A run that fits replaces the slice at its offset. -/
@[simp] theorem Memory.toBytes_putBytes (m : Memory) {off n : Nat} {l : List Byte} (h : off + l.length ≤ n) :
    (m.putBytes off l).toBytes n = (m.toBytes n).take off ++ l ++ (m.toBytes n).drop (off + l.length) := by
  induction l generalizing m off with
  | nil => simp [Memory.putBytes]
  | cons v l ih =>
    rw [List.length_cons] at h
    have hoff : off < (m.toBytes n).length := by
      rw [Memory.length_toBytes]
      omega
    have htake : ((m.toBytes n).set off v).take (off + 1) = (m.toBytes n).take off ++ [v] := by
      rw [List.take_add_one, List.take_set_of_le (Nat.le_refl off), List.getElem?_set_self hoff, Option.toList_some]
    have hdrop : ((m.toBytes n).set off v).drop (off + 1 + l.length) = (m.toBytes n).drop (off + (l.length + 1)) := by
      rw [List.drop_set_of_lt (by omega), Nat.add_assoc, Nat.add_comm 1]
    rw [Memory.putBytes, ih (m.put off v) (by omega), Memory.toBytes_put, htake, hdrop]
    simp

/-- The bytes of a finished frame whose payload is known. -/
theorem Memory.toBytes_finish_of_payload {m : Memory} {payload : List Byte} (h : m.toBytes 36 = payload) :
    m.finish.toBytes 37 = withChecksum payload := h ▸ m.toBytes_finish

/-- R143. -/
theorem encode_initiateReq (u : Byte) : encode (.initiateReq u) = withChecksum ([0x72] ++ zeros 34 ++ [u]) :=
  Memory.toBytes_finish_of_payload (by simp [zeros, List.replicate_succ])

/-- R144: whatever the term's `result` byte is. -/
theorem encode_initiateResp (res p v r m : Byte) (n : Half) (w : Bytes 2) (src u : Byte) :
    encode (.initiateResp res p v r m n w src u) = withChecksum
      ([0x72, 0xFF] ++ zeros 4 ++ [p, v, r, m, BitVec.ofNat 8 (n.toNat / 256), BitVec.ofNat 8 (n.toNat % 256)] ++ w.val ++
        zeros 13 ++ [src, u] ++ zeros 7) :=
  Memory.toBytes_finish_of_payload (by simp [zeros, List.replicate_succ, w.2])

/-- R145: whatever the term's `userId` byte is. -/
theorem encode_initializeReq (p v r m : Byte) (n : Half) (w : Bytes 2) (src u : Byte) :
    encode (.initializeReq p v r m n w src u) = withChecksum
      ([0x00, p, v, r, m, BitVec.ofNat 8 (n.toNat / 256), BitVec.ofNat 8 (n.toNat % 256)] ++ w.val ++ zeros 3 ++ [src] ++
        zeros 23) :=
  Memory.toBytes_finish_of_payload (by simp [zeros, List.replicate_succ, w.2])

/-- R146. -/
theorem encode_initializeOk (u : Byte) : encode (.initializeOk u) = withChecksum ([0x10] ++ zeros 34 ++ [u]) :=
  Memory.toBytes_finish_of_payload (by simp [zeros, List.replicate_succ])

/-- R147. -/
theorem encode_initializeFail (u : Byte) : encode (.initializeFail u) = withChecksum ([0x70] ++ zeros 34 ++ [u]) :=
  Memory.toBytes_finish_of_payload (by simp [zeros, List.replicate_succ])

/-- R149, with the or of base and nibble as their sum (R135). -/
theorem encode_actionResp (lo : Nibble) (u : Byte) :
    encode (.actionResp lo u) = withChecksum ([BitVec.ofNat 8 (0x40 + lo.toNat)] ++ zeros 34 ++ [u]) :=
  Memory.toBytes_finish_of_payload (by simp [zeros, List.replicate_succ, commandOf_action])

/-- R150. -/
theorem encode_eepromReq (a : Half) (r src u34 u35 : Byte) :
    encode (.eepromReq a r src u34 u35) = withChecksum
      ([0x50, 0x00, BitVec.ofNat 8 (a.toNat / 256), BitVec.ofNat 8 (a.toNat % 256), r] ++ zeros 28 ++ [src, u34, u35]) :=
  Memory.toBytes_finish_of_payload (by simp [zeros, List.replicate_succ])

/-- R151. -/
theorem encode_eepromResp (lo : Nibble) (a : Half) (r : Byte) (d : Bytes 27) :
    encode (.eepromResp lo a r d) = withChecksum
      ([BitVec.ofNat 8 (0x50 + lo.toNat), 0x00, BitVec.ofNat 8 (a.toNat / 256), BitVec.ofNat 8 (a.toNat % 256), r] ++ d.val ++
        zeros 4) :=
  Memory.toBytes_finish_of_payload (by simp [zeros, List.replicate_succ, d.2, commandOf_eeprom])

/-- R152: the label is written behind the serial, so its edit cuts through the appended run. -/
theorem encode_liveEvent (lo : Nibble) (g e1 e2 p : Byte) (ms : Bytes 4) (t : Byte) (l : Bytes 16) (u : Byte) :
    encode (.liveEvent lo g e1 e2 p ms t l u) = withChecksum
      ([BitVec.ofNat 8 (0xE0 + lo.toNat), 0x00, g, e1, e2, p] ++ ms.val ++ [t] ++ l.val ++ zeros 7 ++ [u, 0x00]) :=
  Memory.toBytes_finish_of_payload
    (by simp [zeros, List.replicate_succ, List.take_append, List.drop_append, List.take_of_length_le,
      List.drop_of_length_le, ms.2, l.2, commandOf_event])

end Sys2Proof
end

section
/-! Every encoded frame is sealed, has its reserved bytes zero, and selects its own kind (R142). -/
namespace Sys2Proof

theorem reserved_iff {k : Kind} {off : Nat} :
    k.reserved off = true ↔ off < 37 ∧ ∀ run ∈ k.declaredRuns, off < run.1 ∨ run.1 + run.2 ≤ off := by
  simp only [Kind.reserved, Bool.and_eq_true, Bool.not_eq_true', List.any_eq_false, decide_eq_true_eq, not_and_or,
    Nat.not_le, Nat.not_lt]

theorem Memory.read_put_of_ne {m : Memory} {a off : Nat} {v : Byte} (h : off ≠ a) : (m.put a v).read off = m.read off := by
  rw [Memory.read_put, if_neg h]

theorem Memory.read_putU16be_of_outside {m : Memory} {a off : Nat} {v : Half} (h : off < a ∨ a + 2 ≤ off) :
    (m.putU16be a v).read off = m.read off := by
  rw [Memory.read_putU16be, if_neg (by omega), if_neg (by omega)]

theorem Memory.read_putBytes_of_outside {m : Memory} {a off n : Nat} {w : Bytes n} (h : off < a ∨ a + n ≤ off) :
    (m.putBytes a w.val).read off = m.read off := by
  rw [Memory.read_putBytes, w.2, if_neg (by omega)]

theorem byteAt_finish_of_lt {m : Memory} {off : Nat} (h : off < 36) : byteAt (m.finish.toBytes 37) off = m.read off := by
  rw [Memory.byteAt_toBytes, if_pos (by omega), Memory.read_finish, if_neg (by omega)]

/-- R142 (c): a layout writes only inside the runs its kind declares, so a reserved byte is the zero the frame starts with. -/
theorem byteAt_encode_of_reserved {i : Instr} {k : Kind} {off : Nat} (hk : i.kind = some k) (hr : k.reserved off = true) :
    byteAt (encode i) off = 0x00 := by
  have hlt := reserved_lt hr
  obtain ⟨-, hruns⟩ := reserved_iff.mp hr
  cases i with
  | lenImplicit | lenExplicit | lenClamped => cases hk
  | _ =>
    cases hk
    simp only [Kind.declaredRuns, List.forall_mem_cons] at hruns
    refine (byteAt_finish_of_lt hlt).trans ?_
    simp (disch := omega) only [Memory.read_put_of_ne, Memory.read_putU16be_of_outside, Memory.read_putBytes_of_outside,
      Memory.read_empty]

/-- The sixteen command bytes of a range family select its kind (R82). -/
theorem select_actionResp : ∀ lo : Nibble, select .response (BitVec.ofNat 8 (0x40 + lo.toNat)) = some .actionResp := by
  decide
theorem select_eepromResp : ∀ lo : Nibble, select .response (BitVec.ofNat 8 (0x50 + lo.toNat)) = some .eepromResp := by
  decide
theorem select_liveEvent : ∀ lo : Nibble, select .response (BitVec.ofNat 8 (0xE0 + lo.toNat)) = some .liveEvent := by
  decide

/-- The command byte of an encoded frame, at the head of its bytes, selects the message's kind. -/
theorem select_encode {i : Instr} {k : Kind} (hk : i.kind = some k) : select k.dir (byteAt (encode i) 0) = some k := by
  cases i with
  | lenImplicit | lenExplicit | lenClamped => cases hk
  | initiateReq => cases hk; rw [encode_initiateReq]; rfl
  | initiateResp => cases hk; rw [encode_initiateResp]; rfl
  | initializeReq => cases hk; rw [encode_initializeReq]; rfl
  | initializeOk => cases hk; rw [encode_initializeOk]; rfl
  | initializeFail => cases hk; rw [encode_initializeFail]; rfl
  | actionReq => cases hk; rw [Machine.encode_actionReq]; rfl
  | actionResp lo => cases hk; rw [encode_actionResp]; exact select_actionResp lo
  | eepromReq => cases hk; rw [encode_eepromReq]; rfl
  | eepromResp lo => cases hk; rw [encode_eepromResp]; exact select_eepromResp lo
  | liveEvent lo => cases hk; rw [encode_liveEvent]; exact select_liveEvent lo

/-- Settles O3: length and seal are those of any finished buffer (`encode_message`), the rest is kind by kind. -/
theorem encodedFramesAreSealedAndReservedZero : Obligations.EncodedFramesAreSealedAndReservedZero := by
  intro i k hk
  obtain ⟨m, hm⟩ := encode_message (i := i) (by rw [Instr.isMessage, hk]; rfl)
  refine ⟨?_, ?_, fun off => byteAt_encode_of_reserved hk, select_encode hk⟩
  · rw [hm, Memory.length_toBytes]
  · rw [hm, finish_sealed]

end Sys2Proof
end

section
/-! What `ENC` answers for each kind (R140, R143 to R152): the encoder's port hands over the bytes of the message. -/
namespace Sys2Proof.Machine

theorem codec_of_encoder {s : State} (hp : s.port = .encoder) (frame : Memory) (message : Message) :
    codec frame message s = .next (deliverResult (.encoded (frame.toBytes 37)) s) := by
  rw [codec_next, hp]

/-- At the encoder's port every message is answered with its encoding (R140). -/
theorem exec_of_encoder {i : Instr} {s : State} (hmsg : i.isMessage = true) (hp : s.port = .encoder) :
    exec i s = .next (deliverResult (.encoded (encode i)) s) := by
  cases i with
  | lenImplicit | lenExplicit | lenClamped => cases hmsg
  | _ => exact codec_of_encoder hp _ _

/-- The answer of `ENC` from the bytes of the frame. -/
theorem exec_of_encode {i : Instr} {s : State} {f : List Byte} (hmsg : i.isMessage = true) (hp : s.port = .encoder)
    (henc : encode i = f) : exec i s = .next { s with result := some (.encoded f) } :=
  henc ▸ exec_of_encoder hmsg hp

/-- Settles O10: the encoder hands over `encode_initiateReq`. -/
theorem encInitiateReqBuildsItsFrame : Obligations.EncInitiateReqBuildsItsFrame :=
  fun u _ hp => exec_of_encode rfl hp (encode_initiateReq u)

/-- Settles O11: the encoding does not depend on the term's `result` byte. -/
theorem encInitiateRespBuildsItsFrame : Obligations.EncInitiateRespBuildsItsFrame :=
  fun res p v r m n w src u _ hp => exec_of_encode rfl hp (encode_initiateResp res p v r m n w src u)

/-- Settles O12: the encoding does not depend on the term's `userId` byte. -/
theorem encInitializeReqBuildsItsFrame : Obligations.EncInitializeReqBuildsItsFrame :=
  fun p v r m n w src u _ hp => exec_of_encode rfl hp (encode_initializeReq p v r m n w src u)

/-- Settles O13: one frame for each of the two answers. -/
theorem encInitializeAnswersBuildTheirFrames : Obligations.EncInitializeAnswersBuildTheirFrames :=
  fun u _ hp => ⟨exec_of_encode rfl hp (encode_initializeOk u), exec_of_encode rfl hp (encode_initializeFail u)⟩

/-- Settles O14: `encode_actionReq`, with its zeros at offsets 1 to 3 as a run. -/
theorem encActionReqBuildsItsFrame : Obligations.EncActionReqBuildsItsFrame :=
  fun a g src u34 u35 _ hp => exec_of_encode rfl hp (encode_actionReq a g src u34 u35)

/-- Settles O15: the encoder hands over `encode_actionResp`. -/
theorem encActionRespBuildsItsFrame : Obligations.EncActionRespBuildsItsFrame :=
  fun lo u _ hp => exec_of_encode rfl hp (encode_actionResp lo u)

/-- Settles O16: the encoder hands over `encode_eepromReq`. -/
theorem encEepromReqBuildsItsFrame : Obligations.EncEepromReqBuildsItsFrame :=
  fun a r src u34 u35 _ hp => exec_of_encode rfl hp (encode_eepromReq a r src u34 u35)

/-- Settles O17: the encoder hands over `encode_eepromResp`. -/
theorem encEepromRespBuildsItsFrame : Obligations.EncEepromRespBuildsItsFrame :=
  fun lo a r d _ hp => exec_of_encode rfl hp (encode_eepromResp lo a r d)

/-- Settles O18: the encoder hands over `encode_liveEvent`. -/
theorem encLiveEventBuildsItsFrame : Obligations.EncLiveEventBuildsItsFrame :=
  fun lo g e1 e2 p ms t l u _ hp => exec_of_encode rfl hp (encode_liveEvent lo g e1 e2 p ms t l u)

end Sys2Proof.Machine
end

section
/-! The fields of a frame, read and written: where a field stands is said by its bytes, and a layout is read back at every
offset it wrote. -/
namespace Sys2Proof

theorem forall_lt_two_iff {P : Nat → Prop} : (∀ i, i < 2 → P i) ↔ P 0 ∧ P 1 := by
  simp only [Nat.forall_lt_succ_right, Nat.not_lt_zero, false_imp_iff, implies_true, true_and]

theorem forall_lt_three_iff {P : Nat → Prop} : (∀ i, i < 3 → P i) ↔ P 0 ∧ P 1 ∧ P 2 := by
  simp only [Nat.forall_lt_succ_right, Nat.not_lt_zero, false_imp_iff, implies_true, true_and, and_assoc]

/-- A 16-bit field is found where its two bytes stand, the high one first (R53). -/
theorem u16be_eq_iff {b : List Byte} {off : Nat} {v : Half} :
    u16be b off = v ↔ byteAt b off = highByte v ∧ byteAt b (off + 1) = lowByte v := by
  constructor
  · rintro rfl
    exact ⟨(highByte_u16 _ _).symm, (lowByte_u16 _ _).symm⟩
  · rintro ⟨hhigh, hlow⟩
    rw [u16be, hhigh, hlow, u16_of_bytes]

theorem u16be_eq_u16be_iff {b c : List Byte} {off : Nat} :
    u16be b off = u16be c off ↔ ∀ i, i < 2 → byteAt b (off + i) = byteAt c (off + i) := by
  rw [u16be_eq_iff, u16be, highByte_u16, lowByte_u16, forall_lt_two_iff]
  rfl

/-- A run is found where its bytes stand in offset order (R54). -/
theorem bytesAt_eq_iff {b : List Byte} {off n : Nat} {w : Bytes n} :
    bytesAt b off n = w ↔ ∀ i, i < n → byteAt b (off + i) = byteAt w.val i := by
  constructor
  · rintro rfl i hi
    rw [byteAt_bytesAt, if_pos hi]
  · intro h
    refine bytes_ext fun i hi => ?_
    rw [byteAt_bytesAt, if_pos hi, h i hi]

theorem bytesAt_eq_bytesAt_iff {b c : List Byte} {off n : Nat} :
    bytesAt b off n = bytesAt c off n ↔ ∀ i, i < n → byteAt b (off + i) = byteAt c (off + i) := by
  rw [bytesAt_eq_iff]
  refine forall₂_congr fun i hi => ?_
  rw [byteAt_bytesAt, if_pos hi]

theorem Memory.read_put_self {m : Memory} {a : Nat} {v : Byte} : (m.put a v).read a = v := by
  rw [Memory.read_put, if_pos rfl]

theorem Memory.read_putU16be_high {m : Memory} {a : Nat} {v : Half} : (m.putU16be a v).read a = highByte v := by
  rw [Memory.read_putU16be, if_neg (by omega), if_pos rfl]

theorem Memory.read_putU16be_low {m : Memory} {a off : Nat} {v : Half} (h : off = a + 1) :
    (m.putU16be a v).read off = lowByte v := by
  rw [Memory.read_putU16be, if_pos h]

theorem Memory.read_putBytes_inside {m : Memory} {a i n : Nat} {w : Bytes n} (h : i < n) :
    (m.putBytes a w.val).read (a + i) = byteAt w.val i := by
  rw [Memory.read_putBytes, w.2, if_pos (by omega), Nat.add_sub_cancel_left]

end Sys2Proof
end

section
/-! Decoding what was encoded (R179, first half). -/
namespace Sys2Proof

/-- The extraction of a kind reads back what the kind's layout wrote; the two bytes the encoder takes no input for are right in
a well-formed message. -/
theorem extract_encode {i : Instr} {k : Kind} (hk : i.kind = some k) (hwf : i.WellFormed = true) :
    extract k (encode i) = i := by
  cases i with
  | lenImplicit | lenExplicit | lenClamped => cases hk
  | _ =>
    cases hk
    simp only [Instr.WellFormed, beq_iff_eq] at hwf
    -- the fields, as bytes of the frame
    simp only [extract, extractInitiateReq, extractInitiateResp, extractInitializeReq, extractInitializeOk,
      extractInitializeFail, extractActionReq, extractActionResp, extractEepromReq, extractEepromResp, extractLiveEvent,
      Instr.initiateResp.injEq, Instr.initializeReq.injEq, Instr.actionResp.injEq, Instr.eepromReq.injEq,
      Instr.eepromResp.injEq, Instr.liveEvent.injEq, u16be_eq_iff, bytesAt_eq_iff]
    -- the bytes of the frame, as the writes of the layout
    simp only [encode, layoutInitiateReq, layoutInitiateResp, layoutInitializeReq, layoutInitializeOk, layoutInitializeFail,
      layoutActionReq, layoutActionResp, layoutEepromReq, layoutEepromResp, layoutLiveEvent, BitVec.ofNat_eq_ofNat]
    simp +contextual (disch := omega) only [byteAt_finish_of_lt, Memory.read_put_self, Memory.read_put_of_ne,
      Memory.read_putU16be_high, Memory.read_putU16be_low, Memory.read_putU16be_of_outside, Memory.read_putBytes_inside,
      Memory.read_putBytes_of_outside, Memory.read_empty, hwf, lowNibble_commandOf_action, lowNibble_commandOf_eeprom,
      lowNibble_commandOf_event, BitVec.ofNat_eq_ofNat, and_self, implies_true]

/-- Settles O1: an encoded frame is a sealed frame of its own kind, and its extraction is the message. -/
theorem decodeOfEncodeIsTheMessage : Obligations.DecodeOfEncodeIsTheMessage := by
  intro i k hk hwf
  obtain ⟨hlen, hseal, -, hsel⟩ := encodedFramesAreSealedAndReservedZero i k hk
  rw [decode_ok hlen hsel hseal, extract_encode hk hwf]

end Sys2Proof
end

section
/-! What an extraction depends on: the declared bytes, each of them and no other (R177). -/
namespace Sys2Proof

/-- The command byte of a kind, with its low nibble in the three range families (R82, R95). -/
def Kind.command (k : Kind) (lo : Nibble) : Byte :=
  match k with
  | .initiateReq => 0x72
  | .initiateResp => 0x72
  | .initializeReq => 0x00
  | .initializeOk => 0x10
  | .initializeFail => 0x70
  | .actionReq => 0x40
  | .actionResp => commandOf 0x40 lo
  | .eepromReq => 0x50
  | .eepromResp => commandOf 0x50 lo
  | .liveEvent => commandOf 0xE0 lo

/-- A selected kind and the low nibble give the command byte back. -/
theorem command_lowNibble_of_select (dir : Direction) :
    ∀ cmd : Byte, ∀ k ∈ select dir cmd, k.command (lowNibble cmd) = cmd := by
  cases dir <;> decide

theorem commandOf_action_inj {lo lo' : Nibble} : commandOf 0x40#8 lo = commandOf 0x40#8 lo' ↔ lo = lo' :=
  (Function.LeftInverse.injective lowNibble_commandOf_action).eq_iff
theorem commandOf_eeprom_inj {lo lo' : Nibble} : commandOf 0x50#8 lo = commandOf 0x50#8 lo' ↔ lo = lo' :=
  (Function.LeftInverse.injective lowNibble_commandOf_eeprom).eq_iff
theorem commandOf_event_inj {lo lo' : Nibble} : commandOf 0xE0#8 lo = commandOf 0xE0#8 lo' ↔ lo = lo' :=
  (Function.LeftInverse.injective lowNibble_commandOf_event).eq_iff

/-- The runs a layout declares below the checksum. -/
def Kind.fieldRuns (k : Kind) : List (Nat × Nat) := k.declaredRuns.dropLast

theorem declaredRuns_eq (k : Kind) : k.declaredRuns = k.fieldRuns ++ [(36, 1)] := by
  cases k <;> rfl

theorem fieldRuns_below (k : Kind) : ∀ run ∈ k.fieldRuns, run.1 + run.2 ≤ 36 := by
  cases k <;> decide

/-- The declared offsets below the checksum, run by run. -/
theorem forall_declared_iff {k : Kind} {P : Nat → Prop} :
    (∀ off, off < 36 → k.reserved off = false → P off) ↔ ∀ run ∈ k.fieldRuns, ∀ i, i < run.2 → P (run.1 + i) := by
  constructor
  · intro h run hrun i hi
    have hbelow := fieldRuns_below k run hrun
    refine h _ (by omega) (Bool.eq_false_iff.mpr fun hres => ?_)
    have houtside := (reserved_iff.mp hres).2 run (declaredRuns_eq k ▸ List.mem_append_left _ hrun)
    omega
  · intro h off hoff hdecl
    rw [Bool.eq_false_iff, Ne, reserved_iff] at hdecl
    push Not at hdecl
    obtain ⟨run, hrun, hlo, hhi⟩ := hdecl (by omega)
    rw [declaredRuns_eq, List.mem_append, List.mem_singleton] at hrun
    obtain hrun | rfl := hrun
    · have hP := h run hrun (off - run.1) (by omega)
      rwa [Nat.add_sub_cancel' hlo] at hP
    · omega

/-- Two buffers of one kind have the same extraction exactly when they agree on the kind's declared offsets: field by field the
extraction reads the runs of the layout, and its low nibble stands for the command byte. -/
theorem extract_eq_iff {b c : List Byte} {k : Kind} {dir dir' : Direction} (hb : select dir (byteAt b 0) = some k)
    (hc : select dir' (byteAt c 0) = some k) :
    extract k b = extract k c ↔ ∀ off, off < 36 → k.reserved off = false → byteAt b off = byteAt c off := by
  have hcmd : byteAt b 0 = byteAt c 0 ↔ k.command (lowNibble (byteAt b 0)) = k.command (lowNibble (byteAt c 0)) := by
    rw [command_lowNibble_of_select dir _ k hb, command_lowNibble_of_select dir' _ k hc]
  rw [forall_declared_iff]
  cases k with
  | _ =>
    simp only [Kind.command, BitVec.ofNat_eq_ofNat, commandOf_action_inj, commandOf_eeprom_inj, commandOf_event_inj] at hcmd
    simp only [extract, extractInitiateReq, extractInitiateResp, extractInitializeReq, extractInitializeOk,
      extractInitializeFail, extractActionReq, extractActionResp, extractEepromReq, extractEepromResp, extractLiveEvent,
      Instr.initiateReq.injEq, Instr.initiateResp.injEq, Instr.initializeReq.injEq, Instr.initializeOk.injEq,
      Instr.initializeFail.injEq, Instr.actionReq.injEq, Instr.actionResp.injEq, Instr.eepromReq.injEq,
      Instr.eepromResp.injEq, Instr.liveEvent.injEq, u16be_eq_u16be_iff, bytesAt_eq_bytesAt_iff]
    simp only [Kind.fieldRuns, Kind.declaredRuns, List.dropLast, List.forall_mem_cons, List.not_mem_nil, false_imp_iff,
      implies_true, Nat.lt_one_iff, forall_eq, forall_lt_three_iff, Nat.add_zero, Nat.reduceAdd, hcmd, and_true, true_and,
      and_assoc]

theorem not_reserved_command (k : Kind) : k.reserved 0 = false := by
  cases k <;> rfl

/-- Settles O33: the command byte is declared, so the second frame selects the same kind, and `extract_eq_iff`. -/
theorem reservedBytesAreIgnored : Obligations.ReservedBytesAreIgnored := by
  intro dir b c k hb hc hsel hsealb hsealc hagree
  have hcmd : byteAt b 0 = byteAt c 0 := hagree 0 (by omega) (not_reserved_command k)
  have hsel' : select dir (byteAt c 0) = some k := hcmd ▸ hsel
  rw [decode_ok hb hsel hsealb, decode_ok hc hsel' hsealc, (extract_eq_iff hsel hsel').mpr hagree]

end Sys2Proof
end

section
/-! Encoding what was decoded (R179, second half). -/
namespace Sys2Proof

/-- What is extracted is well-formed when the fixed byte of the two kinds that have one is right (R103, R104). -/
theorem wellFormed_extract_iff {k : Kind} {b : List Byte} :
    (extract k b).WellFormed = true ↔
      (k = .initiateResp → byteAt b 1 = 0xFF) ∧ (k = .initializeReq → byteAt b 13 = 0x00) := by
  cases k with
  | initiateResp => exact beq_iff_eq.trans ⟨fun h => ⟨fun _ => h, nofun⟩, fun h => h.1 rfl⟩
  | initializeReq => exact beq_iff_eq.trans ⟨fun h => ⟨nofun, fun _ => h⟩, fun h => h.2 rfl⟩
  | _ => exact iff_of_true rfl ⟨nofun, nofun⟩

/-- The encoder writes the fixed bytes whatever its message has there. -/
theorem wellFormed_extract_encode {i : Instr} {k : Kind} (hk : i.kind = some k) :
    (extract k (encode i)).WellFormed = true := by
  rw [wellFormed_extract_iff]
  constructor
  · rintro rfl
    cases i with
    | initiateResp =>
      rw [encode_initiateResp]
      rfl
    | _ => cases hk
  · rintro rfl
    cases i with
    | initializeReq =>
      refine (byteAt_finish_of_lt (by omega)).trans ?_
      simp (disch := omega) only [Memory.read_put_of_ne, Memory.read_putU16be_of_outside, Memory.read_putBytes_of_outside,
        Memory.read_empty]
    | _ => cases hk

/-- Sealed frames that agree below the checksum are equal. -/
theorem sealed_ext {b c : List Byte} (hb : b.length = 37) (hc : c.length = 37) (hsealb : byteAt b 36 = chk b 36)
    (hsealc : byteAt c 36 = chk c 36) (h : ∀ off, off < 36 → byteAt b off = byteAt c off) : b = c := by
  have hrun : bytesAt b 0 36 = bytesAt c 0 36 := bytesAt_eq_bytesAt_iff.mpr fun i hi => h (0 + i) (by omega)
  have htake : b.take 36 = c.take 36 := by
    have hval := congrArg Subtype.val hrun
    rwa [bytesAt_val (by omega), bytesAt_val (by omega)] at hval
  refine buffer_ext (by omega) fun i hi => ?_
  by_cases h36 : i = 36
  · rw [h36, hsealb, hsealc, chk_congr htake]
  · exact h i (by omega)

/-- Settles O2: both buffers are sealed frames of kind `k`, with the same extraction (`extract_encode`) when the fixed byte is
right; so they agree on the declared offsets (`extract_eq_iff`), and on the reserved ones when these are zero. -/
theorem encodeOfDecodeUpToReservedBytes : Obligations.EncodeOfDecodeUpToReservedBytes := by
  intro dir b i k hdec hk
  obtain ⟨k', hlen, hsel, hseal, rfl⟩ := decode_ok_inv hdec
  cases (extract_kind k' b).symm.trans hk
  obtain ⟨hlen', hseal', hres', hsel'⟩ := encodedFramesAreSealedAndReservedZero _ k hk
  rw [← wellFormed_extract_iff]
  constructor
  · intro h
    have hwf := wellFormed_extract_encode hk
    rw [h] at hres' hwf
    exact ⟨hres', hwf⟩
  · rintro ⟨hres, hwf⟩
    have hagree := (extract_eq_iff hsel' hsel).mp (extract_encode hk hwf)
    refine sealed_ext hlen' hlen hseal' hseal fun off hoff => ?_
    cases hr : k.reserved off with
    | true => rw [hres' off hr, hres off hr]
    | false => exact hagree off hoff hr

end Sys2Proof
end

section
/-! The errors of `DEC` (R161 to R165): which one the decoder answers, and that the step hands it over. -/
namespace Sys2Proof

theorem decode_eq_tooShort_iff {dir : Direction} {b : List Byte} : decode dir b = .err .tooShort ↔ b.length < 2 := by
  obtain ⟨hn, e⟩ | ⟨hn, -, e⟩ | ⟨_, hn, -, -, e⟩ | ⟨_, hn, -, -, -, e⟩ | ⟨_, hn, -, -, e⟩ := decode_cases dir b
  · exact iff_of_true e hn
  all_goals
    rw [e]
    exact iff_of_false nofun (by omega)

/-- The net effect of R164 and R165: with a known command byte it is a message or ChecksumMismatch. -/
theorem decode_known_cases {dir : Direction} {b : List Byte} (hn : 2 ≤ b.length) (hu : ¬unknownCommand dir (byteAt b 0)) :
    (b.length = 37 ∧ byteAt b 36 = chk b 36 ∧ ∃ i, decode dir b = .ok i) ∨
    (¬(b.length = 37 ∧ byteAt b 36 = chk b 36) ∧ decode dir b = .err .checksumMismatch) := by
  obtain ⟨hshort, -⟩ | ⟨-, hsel, -⟩ | ⟨k, -, -, hc, e⟩ | ⟨k, -, -, -, h37, e⟩ | ⟨k, h37, -, hc, e⟩ := decode_cases dir b
  · omega
  · exact absurd ((select_none_iff dir _).mp hsel) hu
  · refine .inr ⟨?_, e⟩
    rintro ⟨h37, hseal⟩
    rw [h37] at hc
    exact hc hseal
  · exact .inr ⟨fun h => h37 h.1, e⟩
  · exact .inl ⟨h37, hc, _, e⟩

/-- Settles O32: the two cases of `decode_known_cases`. -/
theorem knownCommandDecodesIffFullAndSealed : Obligations.KnownCommandDecodesIffFullAndSealed := by
  intro dir b hn hu
  obtain ⟨h37, hseal, hok⟩ | ⟨hnot, herr⟩ := decode_known_cases hn hu
  · exact ⟨iff_of_true hok ⟨h37, hseal⟩, fun h => absurd hok h⟩
  · refine ⟨iff_of_false ?_ hnot, fun _ => herr⟩
    rintro ⟨i, hi⟩
    cases herr.symm.trans hi

end Sys2Proof

namespace Sys2Proof.Machine

/-- A buffer that the port holds and that does not decode has its error raised. -/
theorem driveDec_of_decode_err {dir : Direction} {b : List Byte} {e : DecodeError} (hb : b.length ≤ 37)
    (h : decode dir b = .err e) (s : State) : driveDec dir b s = raise e { s with port := .decoder } := by
  unfold driveDec
  rw [if_neg (Nat.not_lt.mpr hb), h]

theorem codec_of_decoder {s : State} (hp : s.port = .decoder) (frame : Memory) (message : Message) :
    codec frame message s = .next (deliverResult (.decoded message) s) := by
  rw [codec_next, hp]

/-- An error handed over is the one the decoder answered: a message is never an error, and a longer buffer has no step. -/
theorem decode_err_of_driveDec {dir : Direction} {b : List Byte} {e : DecodeError} {s t : State}
    (h : driveDec dir b s = .next t) (ht : t.result = some (.decodeError e)) : decode dir b = .err e := by
  by_cases hb : b.length ≤ 37
  · cases hd : decode dir b with
    | ok i =>
      obtain ⟨frame, message, hexec⟩ := exec_codec (decode_ok_isMessage hd)
      rw [driveDec_of_decode_ok hd, hexec, codec_of_decoder rfl] at h
      cases h
      cases ht
    | err e' =>
      rw [driveDec_of_decode_err hb hd, raise_next] at h
      cases h
      cases ht
      rfl
  · have hrefused : driveDec dir b s = .refused .bufferTooLong := if_pos (Nat.lt_of_not_le hb)
    cases hrefused.symm.trans h

/-- The step hands the error over as its result and enters nothing (R217). -/
theorem step_dec_of_decode_err {s : State} {dir : Direction} {b : List Byte} {rest : List Input} {e : DecodeError}
    (hin : s.inputs = .dec dir b :: rest) (hb : b.length ≤ 37) (h : decode dir b = .err e) :
    step s = .next { s with inputs := rest, port := .decoder, result := some (.decodeError e) } := by
  calc step s = driveDec dir b (takeInput rest s) := step_cons hin
    _ = raise e { takeInput rest s with port := .decoder } := driveDec_of_decode_err hb h _

/-- Settles O29: both halves are `decode_eq_tooShort_iff`. -/
theorem decRaisesTooShort : Obligations.DecRaisesTooShort := by
  intro s dir b rest hin
  constructor
  · intro hn
    exact step_dec_of_decode_err hin (by omega) (decode_eq_tooShort_iff.mpr hn)
  · intro hn t hstep ht
    rw [step_cons hin] at hstep
    have hshort := decode_eq_tooShort_iff.mp (decode_err_of_driveDec hstep ht)
    omega

/-- Settles O30: a command byte of R94's lists is answered before anything else is examined. -/
theorem decRaisesUnknownCommand : Obligations.DecRaisesUnknownCommand :=
  fun _ _ _ _ hin hn hb hu => step_dec_of_decode_err hin hb (decode_of_unknown hn hu)

/-- Settles O31: of the two cases of `decode_known_cases` the trailing byte excludes the message. -/
theorem decRaisesChecksumMismatch : Obligations.DecRaisesChecksumMismatch := by
  intro s dir b rest hin hn hb hu hc
  obtain ⟨h37, hseal, -⟩ | ⟨-, herr⟩ := decode_known_cases hn hu
  · rw [h37] at hc
    exact absurd hseal hc
  · exact step_dec_of_decode_err hin hb herr

end Sys2Proof.Machine
end

section
/-! The label's length (R176): the scan takes off zero bytes, and stops at the first that is not. -/
namespace Sys2Proof

theorem labelLenFrom_le (label : List Byte) (k : Nat) : labelLenFrom label k ≤ k := by
  induction k with
  | zero => exact Nat.le_refl 0
  | succ k ih =>
    unfold labelLenFrom
    split <;> omega

theorem byteAt_of_labelLenFrom_le {label : List Byte} {k i : Nat} (hi : labelLenFrom label k ≤ i) (hk : i < k) :
    byteAt label i = 0x00 := by
  induction k with
  | zero => omega
  | succ k ih =>
    unfold labelLenFrom at hi
    split at hi
    next hzero =>
      obtain hlt | rfl := Nat.lt_succ_iff_lt_or_eq.mp hk
      · exact ih hi hlt
      · exact hzero
    next => omega

theorem byteAt_labelLenFrom_pred_ne {label : List Byte} {k : Nat} (h : 0 < labelLenFrom label k) :
    byteAt label (labelLenFrom label k - 1) ≠ 0x00 := by
  induction k with
  | zero => exact absurd h (Nat.lt_irrefl 0)
  | succ k ih =>
    unfold labelLenFrom at h ⊢
    split
    next hzero =>
      rw [if_pos hzero] at h
      exact ih h
    next hne => exact hne

end Sys2Proof
end

section
/-! What `DEC` answers for each kind (R166 to R175): the decoder's port hands over the message of the extraction. -/
namespace Sys2Proof.Machine

/-- The answer of `DEC` to a sealed frame, from the kind its command byte selects. -/
theorem step_dec_of_select {s : State} {dir : Direction} {b : List Byte} {rest : List Input} {k : Kind} {frame : Memory}
    {message : Message} (hin : s.inputs = .dec dir b :: rest) (hlen : b.length = 37) (hseal : byteAt b 36 = chk b 36)
    (hsel : select dir (byteAt b 0) = some k) (hexec : ∀ t, exec (extract k b) t = codec frame message t) :
    step s = .next { s with inputs := rest, port := .decoder, result := some (.decoded message) } := by
  rw [stepRunsTheDecodedMessage s dir b rest _ hin (decode_ok hlen hsel hseal), hexec, codec_of_decoder rfl]
  rfl

theorem select_of_command {dir : Direction} {cmd c : Byte} {k : Kind} (hcmd : cmd = c) (hsel : select dir c = some k) :
    select dir cmd = some k :=
  hcmd ▸ hsel

/-- A range family is selected by the sixteen bytes from its row's match upwards (R82). -/
theorem select_of_range {k : Kind} {base cmd : Byte} (hrow : ⟨k, .response, base, 0xF0⟩ ∈ kindRows)
    (hbase : base.toNat % 16 = 0) (hlo : base.toNat ≤ cmd.toNat) (hhi : cmd.toNat < base.toNat + 16) :
    select .response cmd = some k :=
  select_of_row _ hrow cmd ((and_highNibble_eq_iff hbase cmd).mpr ⟨hlo, hhi⟩)

/-- Settles O20: 0x72 selects INITIATE_REQ in direction Request. -/
theorem decExtractsInitiateReq : Obligations.DecExtractsInitiateReq := by
  intro s b rest hin hlen hseal hcmd
  have hsel : select .request (byteAt b 0) = some .initiateReq := select_of_command hcmd rfl
  exact step_dec_of_select hin hlen hseal hsel fun _ => rfl

/-- Settles O21: 0x72 selects INITIATE_RESP in direction Response. -/
theorem decExtractsInitiateResp : Obligations.DecExtractsInitiateResp := by
  intro s b rest hin hlen hseal hcmd
  have hsel : select .response (byteAt b 0) = some .initiateResp := select_of_command hcmd rfl
  exact ⟨bytesAt b 12 2, bytesAt_val (by omega), step_dec_of_select hin hlen hseal hsel fun _ => rfl⟩

/-- Settles O22: 0x00 selects INITIALIZE_REQ in direction Request. -/
theorem decExtractsInitializeReq : Obligations.DecExtractsInitializeReq := by
  intro s b rest hin hlen hseal hcmd
  have hsel : select .request (byteAt b 0) = some .initializeReq := select_of_command hcmd rfl
  exact ⟨bytesAt b 7 2, bytesAt_val (by omega), step_dec_of_select hin hlen hseal hsel fun _ => rfl⟩

/-- Settles O23: in direction Response 0x10 selects INITIALIZE_OK and 0x70 INITIALIZE_FAIL. -/
theorem decExtractsInitializeAnswers : Obligations.DecExtractsInitializeAnswers := by
  intro s b rest hin hlen hseal
  constructor
  · intro hcmd
    have hsel : select .response (byteAt b 0) = some .initializeOk := select_of_command hcmd rfl
    exact step_dec_of_select hin hlen hseal hsel fun _ => rfl
  · intro hcmd
    have hsel : select .response (byteAt b 0) = some .initializeFail := select_of_command hcmd rfl
    exact step_dec_of_select hin hlen hseal hsel fun _ => rfl

/-- Settles O24: 0x40 selects ACTION_REQ in direction Request. -/
theorem decExtractsActionReq : Obligations.DecExtractsActionReq := by
  intro s b rest hin hlen hseal hcmd
  have hsel : select .request (byteAt b 0) = some .actionReq := select_of_command hcmd rfl
  exact step_dec_of_select hin hlen hseal hsel fun _ => rfl

/-- Settles O25: the command byte is in ACTION_RESP's range, and base and nibble together are that byte. -/
theorem decExtractsActionResp : Obligations.DecExtractsActionResp := by
  intro s b rest hin hlen hseal hlo hhi
  have hsel : select .response (byteAt b 0) = some .actionResp :=
    select_of_range (base := 0x40) (by decide) rfl hlo hhi
  have hcmd : commandOf 0x40 (lowNibble (byteAt b 0)) = byteAt b 0 := command_lowNibble_of_select _ _ _ hsel
  have hstep := step_dec_of_select hin hlen hseal hsel fun _ => rfl
  rwa [hcmd, lowNibble_eq] at hstep

/-- Settles O26: 0x50 selects EEPROM_REQ in direction Request. -/
theorem decExtractsEepromReq : Obligations.DecExtractsEepromReq := by
  intro s b rest hin hlen hseal hcmd
  have hsel : select .request (byteAt b 0) = some .eepromReq := select_of_command hcmd rfl
  exact step_dec_of_select hin hlen hseal hsel fun _ => rfl

/-- Settles O27: the command byte is in EEPROM_RESP's range, and base and nibble together are that byte. -/
theorem decExtractsEepromResp : Obligations.DecExtractsEepromResp := by
  intro s b rest hin hlen hseal hlo hhi
  have hsel : select .response (byteAt b 0) = some .eepromResp :=
    select_of_range (base := 0x50) (by decide) rfl hlo hhi
  have hcmd : commandOf 0x50 (lowNibble (byteAt b 0)) = byteAt b 0 := command_lowNibble_of_select _ _ _ hsel
  have hstep := step_dec_of_select hin hlen hseal hsel fun _ => rfl
  rw [hcmd, lowNibble_eq] at hstep
  exact ⟨bytesAt b 5 27, bytesAt_val (by omega), hstep⟩

/-- Settles O28: the command byte is in LIVE_EVENT's range, and the label's length is what the scan of R176 leaves. -/
theorem decExtractsLiveEvent : Obligations.DecExtractsLiveEvent := by
  intro s b rest hin hlen hseal hlo hhi
  have hsel : select .response (byteAt b 0) = some .liveEvent :=
    select_of_range (base := 0xE0) (by decide) rfl hlo hhi
  have hcmd : commandOf 0xE0 (lowNibble (byteAt b 0)) = byteAt b 0 := command_lowNibble_of_select _ _ _ hsel
  have hstep := step_dec_of_select hin hlen hseal hsel fun _ => rfl
  rw [hcmd, lowNibble_eq] at hstep
  have hlabel : ∀ i, i < 16 → byteAt (bytesAt b 11 16).val i = byteAt b (11 + i) := fun i hi =>
    (bytesAt_eq_iff.mp rfl i hi).symm
  have hle : labelLen (bytesAt b 11 16) ≤ 16 := labelLenFrom_le _ 16
  refine ⟨bytesAt b 6 4, bytesAt b 11 16, labelLen (bytesAt b 11 16), bytesAt_val (by omega), bytesAt_val (by omega),
    hle, fun i hi h16 => ?_, fun hpos => ?_, hstep⟩
  · rw [← hlabel i h16]
    exact byteAt_of_labelLenFrom_le hi h16
  · rw [← hlabel _ (by omega)]
    exact byteAt_labelLenFrom_pred_ne hpos

end Sys2Proof.Machine
end

section
/-! The steps of `RDF` (R191 to R198): the next state of each event, written out. -/
namespace Sys2Proof.Machine

theorem toNat_count_succ {c : Count} (h : c.toNat < 63) : (c + 1).toNat = c.toNat + 1 :=
  BitVec.toNat_add_of_lt (by show c.toNat + 1 < 2 ^ 6; omega)

section
variable {s : State} {x : Byte} {r : List Byte} {rest : List Input}

theorem presentFrame_of_le {n : Nat} (hn : n ≤ 37) (s : State) :
    presentFrame n s = .next (deliverResult (.frame (s.rbuf.toBytes n)) (endRead s)) :=
  if_pos hn

/-- R195: below the target the byte is stored and the read goes on. -/
theorem furtherByte_of_lt (hlt : s.cnt.toNat + 1 < s.len.toNat) (h37 : s.len.toNat ≤ 37) :
    furtherByte x s = .next (storeByte x s) := by
  obtain ⟨-, he, -⟩ | ⟨-, -, e⟩ | ⟨hge, -⟩ := furtherByte_cases (x := x) (s := s)
  · have hcnt := toNat_count_succ (c := s.cnt) (by omega)
    rw [he] at hcnt
    omega
  · exact e
  · omega

/-- R196: the byte that reaches the target completes the frame. -/
theorem furtherByte_of_last (hlast : s.cnt.toNat + 1 = s.len.toNat) (h37 : s.len.toNat ≤ 37) :
    furtherByte x s =
      .next (deliverResult (.frame ((s.rbuf.put s.cnt.toNat x).toBytes s.len.toNat)) (endRead (storeByte x s))) := by
  have hcnt := toNat_count_succ (c := s.cnt) (by omega)
  obtain ⟨-, -, e⟩ | ⟨-, hne, -⟩ | ⟨hge, -⟩ := furtherByte_cases (x := x) (s := s)
  · exact e
  · exact absurd (BitVec.eq_of_toNat_eq (hcnt.trans hlast)) hne
  · omega

/-- R191. -/
theorem step_rdf_of_idle (hin : s.inputs = .rdf :: rest) (hp : s.phase = .idle) :
    step s = .next { s with inputs := rest, phase := .first, cnt := 0, result := none } :=
  (step_cons hin).trans (startRead_of_idle (s := takeInput rest s) hp)

/-- R204. -/
theorem step_rdf_of_busy (hin : s.inputs = .rdf :: rest) (hp : s.phase ≠ .idle) : step s = .refused .readInProgress :=
  (step_cons hin).trans (startRead_of_busy (s := takeInput rest s) hp)

/-- R192, R194. -/
theorem step_deliver_of_first (hin : s.inputs = .deliver :: rest) (hp : s.phase = .first) (hrx : s.rx = x :: r) :
    step s = .next { s with
      inputs := rest, rx := r, rbuf := s.rbuf.put 0 x, cnt := 1, len := frameLen x, phase := .rest, result := none } := by
  rw [stepRunsTheFirstByteInstruction s x r rest hin hp hrx]
  exact exec_decodeFirstByte x hp

theorem step_deliver_of_rest (hin : s.inputs = .deliver :: rest) (hp : s.phase = .rest) (hrx : s.rx = x :: r) :
    step s = furtherByte x { s with inputs := rest, rx := r, result := none } :=
  (step_cons hin).trans (deliverByte_rest (s := takeInput rest s) hp hrx)

/-- R195. -/
theorem step_deliver_of_lt (hin : s.inputs = .deliver :: rest) (hp : s.phase = .rest) (hrx : s.rx = x :: r)
    (hlt : s.cnt.toNat + 1 < s.len.toNat) (h37 : s.len.toNat ≤ 37) :
    step s = .next { s with
      inputs := rest, rx := r, rbuf := s.rbuf.put s.cnt.toNat x, cnt := s.cnt + 1, result := none } := by
  rw [step_deliver_of_rest hin hp hrx]
  exact furtherByte_of_lt hlt h37

/-- R196. -/
theorem step_deliver_of_last (hin : s.inputs = .deliver :: rest) (hp : s.phase = .rest) (hrx : s.rx = x :: r)
    (hlast : s.cnt.toNat + 1 = s.len.toNat) (h37 : s.len.toNat ≤ 37) :
    step s = .next { s with
      inputs := rest, rx := r, rbuf := s.rbuf.put s.cnt.toNat x, phase := .idle, cnt := 0,
      result := some (.frame ((s.rbuf.put s.cnt.toNat x).toBytes s.len.toNat)) } := by
  rw [step_deliver_of_rest hin hp hrx]
  exact furtherByte_of_last hlast h37

/-- R193. -/
theorem step_timeout_of_first (hin : s.inputs = .timeout :: rest) (hp : s.phase = .first) :
    step s = .next { s with inputs := rest, phase := .idle, result := some .empty } :=
  (step_cons hin).trans (timedOut_of_first (s := takeInput rest s) hp)

/-- R197. -/
theorem step_timeout_of_rest (hin : s.inputs = .timeout :: rest) (hp : s.phase = .rest) (h37 : s.cnt.toNat ≤ 37) :
    step s = .next { s with
      inputs := rest, phase := .idle, cnt := 0, result := some (.frame (s.rbuf.toBytes s.cnt.toNat)) } := by
  calc step s = timedOut (takeInput rest s) := step_cons hin
    _ = presentFrame s.cnt.toNat (takeInput rest s) := timedOut_of_rest hp
    _ = _ := presentFrame_of_le h37 _

/-- R198. -/
theorem step_ioError_of_busy (hin : s.inputs = .ioError :: rest) (hp : s.phase ≠ .idle) :
    step s = .next { s with inputs := rest, phase := .idle, cnt := 0, result := some .transportError } :=
  (step_cons hin).trans (readFailed_of_busy (s := takeInput rest s) hp)

theorem step_event_of_idle {e : Input} (hin : s.inputs = e :: rest) (he : e.isReaderEvent = true) (hp : s.phase = .idle) :
    step s = .refused .noReadInProgress := by
  rw [step_cons hin]
  cases e with
  | deliver => exact deliverByte_of_idle hp
  | timeout => exact timedOut_of_idle hp
  | ioError => exact readFailed_of_idle hp
  | chk | enc | dec | rdf | resetInput | arrive => cases he

theorem step_deliver_of_no_byte (hin : s.inputs = .deliver :: rest) (hp : s.phase ≠ .idle) (hrx : s.rx = []) :
    step s = .refused .noByteWaiting :=
  (step_cons hin).trans (deliverByte_of_no_byte (s := takeInput rest s) hp hrx)

end

/-- Settles O41: `step_deliver_of_first`, with `FrameLen` as a number. -/
theorem firstByteStartsTheFrame : Obligations.FirstByteStartsTheFrame := by
  intro s x r rest hin hp hrx
  refine ⟨_, step_deliver_of_first hin hp hrx, rfl, rfl, frameLen_toNat x, ?_, fun a ha => ?_, rfl, rfl, rfl, rfl⟩
  · exact Memory.read_put_self
  · exact Memory.read_put_of_ne ha

/-- Settles O42: below the target, `step_deliver_of_lt`. -/
theorem furtherByteIsStored : Obligations.FurtherByteIsStored := by
  intro s x r rest hin hp hrx hinv hlt
  obtain ⟨-, -, -, -, h37, -⟩ := (inv_iff_of_rest hp).mp hinv
  refine ⟨_, step_deliver_of_lt hin hp hrx hlt h37, hp, ?_, rfl, ?_, fun a ha => ?_, rfl, rfl, rfl, rfl⟩
  · exact toNat_count_succ (by omega)
  · exact Memory.read_put_self
  · exact Memory.read_put_of_ne ha

/-- Settles O43: at the target, `step_deliver_of_last`; the frame is the buffer with the last byte put behind the others. -/
theorem lastByteCompletesTheFrame : Obligations.LastByteCompletesTheFrame := by
  intro s x r rest hin hp hrx hinv hlast
  obtain ⟨-, -, hlt, -, h37, -⟩ := (inv_iff_of_rest hp).mp hinv
  refine ⟨_, _, step_deliver_of_last hin hp hrx hlast h37, rfl, Memory.length_toBytes _ _, ?_, fun a ha => ?_,
    rfl, rfl, rfl, rfl, rfl⟩
  · rw [Memory.byteAt_toBytes, if_pos hlt]
    exact Memory.read_put_self
  · rw [Memory.byteAt_toBytes, if_pos (by omega)]
    exact Memory.read_put_of_ne (by omega)

/-- Settles O44: `step_timeout_of_first`. -/
theorem timeoutBeforeTheFirstByteIsEmpty : Obligations.TimeoutBeforeTheFirstByteIsEmpty :=
  fun _ _ hin hp => step_timeout_of_first hin hp

/-- Settles O45: the frame is the `cnt` bytes of the buffer, and the invariant bounds `cnt`. -/
theorem timeoutInMidFrameGivesAShortFrame : Obligations.TimeoutInMidFrameGivesAShortFrame := by
  intro s rest hin hp hinv
  obtain ⟨-, hpos, hlt, -, h37, -⟩ := (inv_iff_of_rest hp).mp hinv
  have hn : (s.rbuf.toBytes s.cnt.toNat).length = s.cnt.toNat := Memory.length_toBytes _ _
  refine ⟨_, hn, hn.symm ▸ hpos, hn.symm ▸ hlt, fun a ha => ?_, step_timeout_of_rest hin hp (by omega)⟩
  rw [Memory.byteAt_toBytes, if_pos (hn ▸ ha)]

/-- Settles O46: `step_ioError_of_busy`. -/
theorem ioErrorGivesTransportError : Obligations.IoErrorGivesTransportError :=
  fun _ _ hin hp => step_ioError_of_busy hin hp

/-- Settles O47: the start from Idle, and the start of a reader that is busy. -/
theorem startReadsOnlyFromIdle : Obligations.StartReadsOnlyFromIdle :=
  fun _ _ hin => ⟨step_rdf_of_idle hin, step_rdf_of_busy hin⟩

/-- Settles O53: the reader's stops are its operations outside their phase, the codec's are the limits of its ports. -/
theorem situationsWithoutARuleAreRefused : Obligations.SituationsWithoutARuleAreRefused := by
  intro s rest
  refine ⟨?_, ?_, ?_, ?_, ?_, ?_, ?_, ?_⟩
  · exact fun hp hin => step_rdf_of_busy hin hp
  · exact fun hp hin => (step_cons hin).trans (resetInput_of_busy (s := takeInput rest s) hp)
  · exact fun e he hp hin => step_event_of_idle hin he hp
  · exact fun hp hrx hin => step_deliver_of_no_byte hin hp hrx
  · exact fun dir b hb hin => (step_cons hin).trans (if_pos hb)
  · exact fun b k hb hin => (step_cons hin).trans (if_pos hb)
  · exact fun b k hb hk hin => (step_cons hin).trans ((if_neg (Nat.not_lt.mpr hb)).trans (if_pos hk))
  · exact fun i hi hin => (step_cons hin).trans (if_neg (by simp [hi]))

end Sys2Proof.Machine
end

section
/-! Every read ends (R205): each event of a read in progress ends it or leaves fewer bytes to come. -/
namespace Sys2Proof.Machine

/-- The most bytes a read in progress can still take. -/
def State.bytesLeft (s : State) : Nat :=
  match s.phase with
  | .idle => 0
  | .first => 37
  | .rest => s.len.toNat - s.cnt.toNat

/-- The read has ended and hands something over. -/
def State.ReadEnded (s : State) : Prop := s.phase = .idle ∧ s.cnt = 0 ∧ s.result.isSome = true

/-- At some time in the next `k` steps the read has ended. -/
def State.EndsWithin (s : State) (k : Nat) : Prop :=
  ∃ (n : Nat) (t : State), 1 ≤ n ∧ n ≤ k ∧ Host.Core.run core n s = .next t ∧ t.ReadEnded

section
variable {s t : State}

theorem endsWithin_of_readEnded (hstep : step s = .next t) (hend : t.ReadEnded) (k : Nat) : s.EndsWithin (k + 1) :=
  ⟨1, t, le_rfl, Nat.succ_pos k, run_one hstep, hend⟩

theorem endsWithin_of_step {k : Nat} (hstep : step s = .next t) (h : t.EndsWithin k) : s.EndsWithin (k + 1) := by
  obtain ⟨n, u, -, hn, hrun, hend⟩ := h
  exact ⟨n + 1, u, Nat.succ_pos n, Nat.succ_le_succ hn, (run_succ hstep n).trans hrun, hend⟩

theorem bytesLeft_of_first (hp : s.phase = .first) : s.bytesLeft = 37 := by
  unfold State.bytesLeft
  rw [hp]

theorem bytesLeft_of_rest (hp : s.phase = .rest) : s.bytesLeft = s.len.toNat - s.cnt.toNat := by
  unfold State.bytesLeft
  rw [hp]

/-- A read in progress has a byte to come, and no more than a frame. -/
theorem bytesLeft_bounds (hinv : s.Inv) (hp : s.phase ≠ .idle) : 1 ≤ s.bytesLeft ∧ s.bytesLeft ≤ 37 := by
  cases hs : s.phase with
  | idle => exact absurd hs hp
  | first =>
    rw [bytesLeft_of_first hs]
    decide
  | rest =>
    obtain ⟨-, -, hlt, -, h37, -⟩ := (inv_iff_of_rest hs).mp hinv
    rw [bytesLeft_of_rest hs]
    omega

theorem bytesLeft_congr (hp : t.phase = s.phase) (hc : t.cnt = s.cnt) (hl : t.len = s.len) : t.bytesLeft = s.bytesLeft := by
  unfold State.bytesLeft
  rw [hp, hc, hl]

/-- A byte delivered to a read in progress ends it, or the read goes on with fewer bytes to come. -/
theorem step_deliver_cases {x : Byte} {r : List Byte} {rest : List Input} (hin : s.inputs = .deliver :: rest)
    (hrx : s.rx = x :: r) (hinv : s.Inv) (hp : s.phase ≠ .idle) :
    ∃ t, step s = .next t ∧
      (t.ReadEnded ∨ t.phase ≠ .idle ∧ t.bytesLeft < s.bytesLeft ∧ t.inputs = rest ∧ t.rx = r) := by
  cases hs : s.phase with
  | idle => exact absurd hs hp
  | first =>
    refine ⟨_, step_deliver_of_first hin hs hrx, .inr ⟨nofun, ?_, rfl, rfl⟩⟩
    rw [bytesLeft_of_rest rfl, bytesLeft_of_first hs]
    have := (frameLen_bounds x).2
    show (frameLen x).toNat - 1 < 37
    omega
  | rest =>
    obtain ⟨-, -, hlt, -, h37, -⟩ := (inv_iff_of_rest hs).mp hinv
    by_cases hlast : s.cnt.toNat + 1 = s.len.toNat
    · exact ⟨_, step_deliver_of_last hin hs hrx hlast h37, .inl ⟨rfl, rfl, rfl⟩⟩
    · refine ⟨_, step_deliver_of_lt hin hs hrx (by omega) h37, .inr ⟨hp, ?_, rfl, rfl⟩⟩
      rw [bytesLeft_of_rest (by exact hs), bytesLeft_of_rest hs]
      have := toNat_count_succ (c := s.cnt) (by omega)
      show s.len.toNat - (s.cnt + 1).toNat < _
      omega

/-- A timeout or an I/O error always ends a read in progress. -/
theorem step_timeoutOrError {e : Input} {rest : List Input} (hin : s.inputs = e :: rest)
    (he : e.isTimeoutOrError = true) (hinv : s.Inv) (hp : s.phase ≠ .idle) : ∃ t, step s = .next t ∧ t.ReadEnded := by
  cases e with
  | timeout =>
    cases hs : s.phase with
    | idle => exact absurd hs hp
    | first => exact ⟨_, step_timeout_of_first hin hs, rfl, ((inv_iff_of_first hs).mp hinv).2, rfl⟩
    | rest =>
      obtain ⟨-, -, hlt, -, h37, -⟩ := (inv_iff_of_rest hs).mp hinv
      exact ⟨_, step_timeout_of_rest hin hs (by omega), rfl, rfl, rfl⟩
  | ioError => exact ⟨_, step_ioError_of_busy hin hp, rfl, rfl, rfl⟩
  | chk | enc | dec | rdf | resetInput | arrive | deliver => cases he

theorem isReaderEvent_iff {e : Input} : e.isReaderEvent = true ↔ e = .deliver ∨ e.isTimeoutOrError = true := by
  cases e <;> simp [Input.isReaderEvent, Input.isTimeoutOrError]

/-- A read in progress ends within the next events if they are as many as it has bytes to come, and as many bytes wait. -/
theorem endsWithin_events {es rest : List Input} (hinv : s.Inv) (hp : s.phase ≠ .idle)
    (hes : ∀ e ∈ es, e.isReaderEvent = true) (hleft : s.bytesLeft ≤ es.length) (hrx : es.length ≤ s.rx.length)
    (hin : s.inputs = es ++ rest) : s.EndsWithin es.length := by
  induction es generalizing s with
  | nil => exact absurd ((bytesLeft_bounds hinv hp).1.trans hleft) (by decide)
  | cons e es ih =>
    obtain rfl | he := isReaderEvent_iff.mp (hes e List.mem_cons_self)
    · obtain ⟨x, r, hx⟩ := List.exists_cons_of_length_pos (Nat.lt_of_lt_of_le (Nat.succ_pos _) hrx)
      obtain ⟨t, hstep, hend | ⟨hpt, hlt, htin, htrx⟩⟩ := step_deliver_cases hin hx hinv hp
      · exact endsWithin_of_readEnded hstep hend _
      · have hrxt : es.length ≤ t.rx.length := by
          rw [htrx]
          simpa [hx] using hrx
        have hleftt : t.bytesLeft ≤ es.length := Nat.le_of_lt_succ (hlt.trans_le hleft)
        exact endsWithin_of_step hstep (ih (stepKeepsTheReaderInvariant s t hinv hstep) hpt
          (fun e he => hes e (List.mem_cons_of_mem _ he)) hleftt hrxt htin)
    · obtain ⟨t, hstep, hend⟩ := step_timeoutOrError hin he hinv hp
      exact endsWithin_of_readEnded hstep hend _

end

/-- Settles O52: at most 37 bytes are to come (`bytesLeft_bounds`), one for each event. -/
theorem readEndsWithin37Events : Obligations.ReadEndsWithin37Events := by
  intro s es rest hinv hp hes h37 hrx hin
  have hleft : s.bytesLeft ≤ es.length := h37 ▸ (bytesLeft_bounds hinv hp).2
  obtain ⟨n, t, h1, hn, hrun, hphase, hcnt, hresult⟩ := endsWithin_events hinv hp hes hleft (h37 ▸ hrx) hin
  exact ⟨n, t, h1, h37 ▸ hn, hrun, hphase, hcnt, hresult⟩

end Sys2Proof.Machine
end

section
/-! Every read ends under a lawful and fair environment (R205, U21): events come again and again, and each leaves fewer bytes
to come. -/
namespace Sys2Proof.Machine

section
variable {env : Schedule} {s t : State} {n : Nat}

theorem count_succ (env : Schedule) (p : Input → Bool) (n : Nat) :
    env.count p (n + 1) = env.count p n + if (env n).any p then 1 else 0 := rfl

theorem count_succ_le (env : Schedule) (p : Input → Bool) (n : Nat) : env.count p (n + 1) ≤ env.count p n + 1 := by
  rw [count_succ]
  split <;> omega

theorem count_succ_of_some {p : Input → Bool} {e : Input} (hn : env n = some e) (he : p e = true) :
    env.count p (n + 1) = env.count p n + 1 := by
  simp [count_succ, hn, he]

theorem count_mono (env : Schedule) (p : Input → Bool) : Monotone (env.count p) :=
  monotone_nat_of_le_succ fun n => count_succ env p n ▸ Nat.le_add_right _ _

theorem any_isTimeoutOrError_of_no_event {i : Option Input} (h : i.any Input.isReaderEvent = false) :
    i.any Input.isTimeoutOrError = false := by
  cases i with
  | none => rfl
  | some e => exact Bool.eq_false_iff.mpr fun he => Bool.eq_false_iff.mp h (isReaderEvent_iff.mpr (.inr he))

/-- What one time does to a read in progress: only an event ends it or leaves fewer bytes to come, and a timeout or an error
ends it. -/
theorem step_given_cases {i : Option Input} (hinv : s.Inv) (hp : s.phase ≠ .idle) (hstep : step (s.given i) = .next t) :
    t.ReadEnded ∨ t.phase ≠ .idle ∧ i.any Input.isTimeoutOrError = false ∧
      t.bytesLeft + (if i.any Input.isReaderEvent then 1 else 0) ≤ s.bytesLeft := by
  cases hi : i.any Input.isReaderEvent with
  | false =>
    obtain ⟨hphase, hcnt, hlen, -⟩ := step_between_events hp hi hstep
    exact .inr ⟨hphase ▸ hp, any_isTimeoutOrError_of_no_event hi, (bytesLeft_congr hphase hcnt hlen).le⟩
  | true =>
    obtain ⟨e, rfl, he⟩ := (Option.any_eq_true _ _).mp hi
    obtain rfl | he := isReaderEvent_iff.mp he
    · cases hrx : s.rx with
      | nil => cases hstep.symm.trans (step_deliver_of_no_byte (s := s.given (some .deliver)) rfl hp hrx)
      | cons x r =>
        obtain ⟨t', hstep', hcases⟩ := step_deliver_cases (s := s.given (some .deliver)) rfl hrx hinv hp
        cases hstep.symm.trans hstep'
        exact hcases.imp_right fun ⟨hpt, hlt, _, _⟩ => ⟨hpt, rfl, hlt⟩
    · obtain ⟨t', hstep', hend⟩ := step_timeoutOrError (s := s.given (some e)) rfl he hinv hp
      cases hstep.symm.trans hstep'
      exact .inl hend

/-- Along a run that has not been in Idle yet, the events so far and the bytes to come are at most 37, and no timeout or error
has come. -/
theorem events_add_bytesLeft_le (hinv : s.Inv) (hbusy : ∀ m u, m ≤ n → env.stateAt s m = some u → u.phase ≠ .idle)
    (ht : env.stateAt s n = some t) :
    t.Inv ∧ env.count Input.isReaderEvent n + t.bytesLeft ≤ 37 ∧ env.count Input.isTimeoutOrError n = 0 := by
  induction n generalizing t with
  | zero =>
    cases ht
    exact ⟨hinv, (Nat.zero_add _).trans_le (bytesLeft_bounds hinv (hbusy 0 s le_rfl rfl)).2, rfl⟩
  | succ n ih =>
    obtain ⟨u, hu, hstep⟩ := stateAt_succ_inv ht
    obtain ⟨hinvu, hle, hzero⟩ := ih (fun m u hm => hbusy m u (hm.trans (Nat.le_succ n))) hu
    obtain ⟨hidle, -, -⟩ | ⟨-, hte, hleft⟩ := step_given_cases hinvu (hbusy n u (Nat.le_succ n) hu) hstep
    · exact absurd hidle (hbusy (n + 1) t le_rfl ht)
    · refine ⟨stepKeepsTheReaderInvariant (u.given (env n)) t hinvu hstep, ?_, ?_⟩
      · rw [count_succ]
        omega
      · simp [count_succ, hzero, hte]

/-- If the reader never comes to Idle, fairness gives it any number of events. -/
theorem events_unbounded (hlawful : env.Lawful s) (hfair : env.Fair s)
    (hbusy : ∀ n t, env.stateAt s n = some t → t.phase ≠ .idle) (k : Nat) : ∃ n, k ≤ env.count Input.isReaderEvent n := by
  induction k with
  | zero => exact ⟨0, Nat.zero_le _⟩
  | succ k ih =>
    obtain ⟨n, hn⟩ := ih
    obtain ⟨t, ht⟩ := Option.ne_none_iff_exists'.mp (hlawful n)
    obtain ⟨m, e, hnm, hm, he⟩ := hfair n t ht (hbusy n t ht)
    refine ⟨m + 1, ?_⟩
    rw [count_succ_of_some hm he]
    exact Nat.succ_le_succ (hn.trans (count_mono env _ hnm))

/-- The read cannot go on for ever: 38 events are more than `events_add_bytesLeft_le` allows. -/
theorem exists_stateAt_idle (hinv : s.Inv) (hlawful : env.Lawful s) (hfair : env.Fair s) :
    ∃ n t, env.stateAt s n = some t ∧ t.phase = .idle := by
  by_contra hnever
  have hbusy : ∀ n t, env.stateAt s n = some t → t.phase ≠ .idle := fun n t ht hp => hnever ⟨n, t, ht, hp⟩
  obtain ⟨n, hn⟩ := events_unbounded hlawful hfair hbusy 38
  obtain ⟨t, ht⟩ := Option.ne_none_iff_exists'.mp (hlawful n)
  obtain ⟨-, hle, -⟩ := events_add_bytesLeft_le hinv (fun m u _ => hbusy m u) ht
  omega

end

/-- Settles O59: the step into the first time in Idle is the one event that ended the read, and the events before that one left
at least one byte to come. -/
theorem everyReadEndsUnderAFairEnvironment : Obligations.EveryReadEndsUnderAFairEnvironment := by
  intro env s hinv hp hlawful hfair
  classical
  have hends := exists_stateAt_idle hinv hlawful hfair
  obtain ⟨t, ht, hidle⟩ := Nat.find_spec hends
  have hbusy : ∀ m u, m < Nat.find hends → env.stateAt s m = some u → u.phase ≠ .idle := fun m u hm hu hpu =>
    Nat.find_min hends hm ⟨u, hu, hpu⟩
  cases hn : Nat.find hends with
  | zero =>
    rw [hn] at ht
    cases ht
    exact absurd hidle hp
  | succ n =>
    rw [hn] at ht hbusy
    obtain ⟨u, hu, hstep⟩ := stateAt_succ_inv ht
    have hpu := hbusy n u (Nat.lt_succ_self n) hu
    obtain ⟨hinvu, hevents, hnone⟩ := events_add_bytesLeft_le hinv (fun m u hm => hbusy m u (Nat.lt_succ_of_le hm)) hu
    have hleft := (bytesLeft_bounds hinvu hpu).1
    have hlast := count_succ_le env Input.isReaderEvent n
    have hlast' := count_succ_le env Input.isTimeoutOrError n
    obtain ⟨-, hcnt, hresult⟩ | ⟨hgoes, -, -⟩ := step_given_cases hinvu hpu hstep
    · exact ⟨n + 1, t, ht, hidle, hcnt, hresult, hbusy, by omega, by omega⟩
    · exact absurd hidle hgoes

end Sys2Proof.Machine
end

section
/-! `RDF` as a function of two reads (R199): the step machine on the events of the two answers. -/
namespace Sys2Proof

/-- A byte put at offset `n` stands behind the first `n` bytes. -/
theorem Memory.toBytes_put_succ (m : Memory) (n : Nat) (x : Byte) : (m.put n x).toBytes (n + 1) = m.toBytes n ++ [x] := by
  rw [Memory.toBytes_succ, Memory.read_put_self, Memory.toBytes_congr fun i hi => Memory.read_put_of_ne (Nat.ne_of_lt hi)]

end Sys2Proof

namespace Sys2Proof.Machine

/-- A read in mid-frame that has stored exactly the bytes `b`, with the stream and the inputs still to come. -/
structure State.MidFrame (s : State) (b rx : List Byte) (inputs : List Input) : Prop where
  inv : s.Inv
  phase : s.phase = .rest
  stored : s.rbuf.toBytes s.cnt.toNat = b
  rx : s.rx = rx
  inputs : s.inputs = inputs

/-- After the inputs `es` the read has ended with the result `res`, and `rx` and `rest` are what is left of the stream and the
inputs. -/
def State.ReadsOut (s : State) (es : List Input) (res : Result) (rx : List Byte) (rest : List Input) : Prop :=
  ∃ t : State, Host.Core.run core es.length s = .next t ∧
    t.result = some res ∧ t.rx = rx ∧ t.phase = .idle ∧ t.cnt = 0 ∧ t.inputs = rest

section
variable {s t : State} {b c r rx : List Byte} {x : Byte} {e : Input} {d es rest : List Input} {res : Result}

theorem readsOut_append (hrun : Host.Core.run core d.length s = .next t) (h : t.ReadsOut es res rx rest) :
    s.ReadsOut (d ++ es) res rx rest := by
  obtain ⟨u, hu, hend⟩ := h
  refine ⟨u, ?_, hend⟩
  rw [List.length_append, run_add hrun, hu]

theorem readsOut_cons (hstep : step s = .next t) (h : t.ReadsOut es res rx rest) : s.ReadsOut (e :: es) res rx rest :=
  readsOut_append (d := [e]) (run_one hstep) h

theorem State.MidFrame.cnt_eq (h : s.MidFrame b rx es) : s.cnt.toNat = b.length := by
  rw [← h.stored, Memory.length_toBytes]

theorem State.MidFrame.ne_nil (h : s.MidFrame b rx es) : b ≠ [] := by
  obtain ⟨-, hpos, -⟩ := (inv_iff_of_rest h.phase).mp h.inv
  rw [h.cnt_eq] at hpos
  exact List.ne_nil_of_length_pos hpos

/-- The first byte stored gives the target. -/
theorem State.MidFrame.len_eq (h : s.MidFrame b rx es) : s.len.toNat = aimedLength b := by
  obtain ⟨-, hpos, -, -, -, hlen⟩ := (inv_iff_of_rest h.phase).mp h.inv
  obtain ⟨n, hn⟩ := Nat.exists_eq_add_of_le' hpos
  rw [hlen, ← h.stored, hn]
  simp [aimedLength, Memory.toBytes, List.range_succ_eq_map]

theorem aimedLength_append (hb : b ≠ []) (c : List Byte) : aimedLength (b ++ c) = aimedLength b := by
  cases b with
  | nil => exact absurd rfl hb
  | cons x b => rfl

/-- R192: the first byte starts the frame. -/
theorem midFrame_of_first (hinv : s.Inv) (hp : s.phase = .first) (hrx : s.rx = x :: r)
    (hin : s.inputs = .deliver :: rest) : ∃ t, step s = .next t ∧ t.MidFrame [x] r rest := by
  have hstep := step_deliver_of_first hin hp hrx
  exact ⟨_, hstep, stepKeepsTheReaderInvariant s _ hinv hstep, rfl, Memory.toBytes_put_succ s.rbuf 0 x, rfl, rfl⟩

/-- R195: a byte below the target is stored behind the others. -/
theorem State.MidFrame.further (h : s.MidFrame b (x :: r) (.deliver :: rest)) (hlt : b.length + 1 < aimedLength b) :
    ∃ t, step s = .next t ∧ t.MidFrame (b ++ [x]) r rest := by
  obtain ⟨-, -, -, -, h37, -⟩ := (inv_iff_of_rest h.phase).mp h.inv
  rw [← h.cnt_eq, ← h.len_eq] at hlt
  have hstep := step_deliver_of_lt h.inputs h.phase h.rx hlt h37
  refine ⟨_, hstep, stepKeepsTheReaderInvariant s _ h.inv hstep, h.phase, ?_, rfl, rfl⟩
  show (s.rbuf.put s.cnt.toNat x).toBytes (s.cnt + 1).toNat = b ++ [x]
  rw [toNat_count_succ (by omega), Memory.toBytes_put_succ, h.stored]

/-- R196: the byte that reaches the target completes the frame. -/
theorem State.MidFrame.last (h : s.MidFrame b (x :: r) (.deliver :: rest)) (hlast : b.length + 1 = aimedLength b) :
    s.ReadsOut [.deliver] (.frame (b ++ [x])) r rest := by
  obtain ⟨-, -, -, -, h37, -⟩ := (inv_iff_of_rest h.phase).mp h.inv
  rw [← h.cnt_eq, ← h.len_eq] at hlast
  refine ⟨_, run_one (step_deliver_of_last h.inputs h.phase h.rx hlast h37), ?_, rfl, rfl, rfl, rfl⟩
  rw [← hlast, Memory.toBytes_put_succ, h.stored]

/-- R197. -/
theorem State.MidFrame.timeout (h : s.MidFrame b rx (.timeout :: rest)) : s.ReadsOut [.timeout] (.frame b) rx rest := by
  obtain ⟨-, -, hlt, -, h37, -⟩ := (inv_iff_of_rest h.phase).mp h.inv
  refine ⟨_, run_one (step_timeout_of_rest h.inputs h.phase (by omega)), ?_, h.rx, rfl, rfl, rfl⟩
  rw [h.stored]

/-- R198. -/
theorem State.MidFrame.ioError (h : s.MidFrame b rx (.ioError :: rest)) : s.ReadsOut [.ioError] .transportError rx rest :=
  have hbusy : s.phase ≠ .idle := h.phase ▸ nofun
  ⟨_, run_one (step_ioError_of_busy h.inputs hbusy), rfl, h.rx, rfl, rfl, rfl⟩

/-- Bytes that do not reach the target are stored one behind the other. -/
theorem State.MidFrame.delivers (h : s.MidFrame b (c ++ r) (List.replicate c.length .deliver ++ rest))
    (hroom : b.length + c.length < aimedLength b) :
    ∃ t, Host.Core.run core (List.replicate c.length Input.deliver).length s = .next t ∧ t.MidFrame (b ++ c) r rest := by
  induction c generalizing s b with
  | nil => exact ⟨s, rfl, (List.append_nil b).symm ▸ h⟩
  | cons x c ih =>
    rw [List.length_cons] at hroom
    obtain ⟨t, hstep, ht⟩ := State.MidFrame.further (x := x) (r := c ++ r) h (by omega)
    obtain ⟨u, hrun, hu⟩ := ih ht (by
      rw [aimedLength_append h.ne_nil, List.length_append, List.length_singleton]
      omega)
    exact ⟨u, (run_succ hstep _).trans hrun, List.append_cons b x c ▸ hu⟩

/-- Bytes that reach the target complete the frame: all but the last are stored first. -/
theorem State.MidFrame.delivers_to_target (h : s.MidFrame b (c ++ r) (List.replicate c.length .deliver ++ rest))
    (htarget : b.length + c.length = aimedLength b) :
    s.ReadsOut (List.replicate c.length .deliver) (.frame (b ++ c)) r rest := by
  obtain rfl | ⟨c, y, rfl⟩ := List.eq_nil_or_concat' c
  · obtain ⟨-, -, hlt, -⟩ := (inv_iff_of_rest h.phase).mp h.inv
    rw [h.cnt_eq, h.len_eq, ← htarget] at hlt
    exact absurd hlt (Nat.lt_irrefl _)
  · have hn : (c ++ [y]).length = c.length + 1 := List.length_append
    rw [hn] at htarget
    rw [hn, List.replicate_succ'] at h ⊢
    rw [List.append_assoc, List.append_assoc] at h
    obtain ⟨t, hrun, ht⟩ := h.delivers (by omega)
    have hlast : (b ++ c).length + 1 = aimedLength (b ++ c) := by
      rw [aimedLength_append h.ne_nil, List.length_append, ← htarget, Nat.add_assoc]
    rw [← List.append_assoc b]
    exact readsOut_append hrun (ht.last hlast)

/-- The events of the second read's answer `a` on a stream that gives it the bytes `c`: fewer bytes than asked for, and then a
timeout or an error, or all of them. -/
theorem State.MidFrame.secondRead {a : ReadAnswer}
    (h : s.MidFrame [x] (c ++ r) (a.events (aimedLength [x] - 1) ++ rest)) (hfits : a.fits (aimedLength [x] - 1) = true)
    (hc : c.length = a.taken) :
    s.ReadsOut (a.events (aimedLength [x] - 1)) (readFrame (x :: (c ++ r)) (.bytes 1) a).1 r rest := by
  cases a with
  | fails k =>
    obtain rfl : c.length = k := hc
    have hlt : c.length < aimedLength [x] - 1 := of_decide_eq_true hfits
    rw [ReadAnswer.events, List.append_assoc] at h
    obtain ⟨t, hrun, ht⟩ := h.delivers (by rw [List.length_singleton]; omega)
    exact readsOut_append hrun ht.ioError
  | bytes k =>
    obtain rfl : c.length = k := hc
    have hframe : (readFrame (x :: (c ++ r)) (.bytes 1) (.bytes c.length)).1 = .frame ([x] ++ c) := by simp [readFrame]
    rw [hframe]
    by_cases hlt : c.length < aimedLength [x] - 1
    · rw [ReadAnswer.events, if_pos hlt] at h ⊢
      rw [List.append_assoc] at h
      obtain ⟨t, hrun, ht⟩ := h.delivers (by rw [List.length_singleton]; omega)
      exact readsOut_append hrun ht.timeout
    · have hle : c.length ≤ aimedLength [x] - 1 := of_decide_eq_true hfits
      have h5 : 5 ≤ aimedLength [x] := (frameLen_bounds x).1
      rw [ReadAnswer.events, if_neg hlt, List.append_nil] at h ⊢
      exact h.delivers_to_target (by rw [List.length_singleton]; omega)

/-- R193. -/
theorem readsOut_timeout_of_first (hinv : s.Inv) (hp : s.phase = .first) (hin : s.inputs = .timeout :: rest) :
    s.ReadsOut [.timeout] .empty s.rx rest :=
  ⟨_, run_one (step_timeout_of_first hin hp), rfl, rfl, rfl, ((inv_iff_of_first hp).mp hinv).2, rfl⟩

theorem readsOut_ioError_of_first (hp : s.phase = .first) (hin : s.inputs = .ioError :: rest) :
    s.ReadsOut [.ioError] .transportError s.rx rest :=
  have hbusy : s.phase ≠ .idle := hp ▸ nofun
  ⟨_, run_one (step_ioError_of_busy hin hbusy), rfl, rfl, rfl, rfl, rfl⟩

/-- A first read that gives its byte, and the second read behind it. -/
theorem readsOut_of_first {a : ReadAnswer} (hinv : s.Inv) (hp : s.phase = .first) (hrx : s.rx = x :: r)
    (hfits : a.fits (aimedLength [x] - 1) = true) (htaken : a.taken ≤ r.length)
    (hin : s.inputs = .deliver :: (a.events (aimedLength [x] - 1) ++ rest)) :
    s.ReadsOut (.deliver :: a.events (aimedLength [x] - 1)) (readFrame (x :: r) (.bytes 1) a).1
      (readFrame (x :: r) (.bytes 1) a).2 rest := by
  have hcut : r.take a.taken ++ r.drop a.taken = r := List.take_append_drop a.taken r
  have hleft : (readFrame (x :: r) (.bytes 1) a).2 = r.drop a.taken := by cases a <;> rfl
  obtain ⟨t, hstep, ht⟩ := midFrame_of_first hinv hp hrx hin
  rw [← hcut] at ht
  have hread := ht.secondRead hfits (List.length_take_of_le htaken)
  rw [hcut, ← hleft] at hread
  exact readsOut_cons hstep hread

end

theorem fits_one_iff {a : ReadAnswer} : a.fits 1 = true ↔ a = .fails 0 ∨ a = .bytes 0 ∨ a = .bytes 1 := by
  cases a with
  | bytes k => simp [ReadAnswer.fits, Nat.le_one_iff_eq_zero_or_eq_one]
  | fails k => simp [ReadAnswer.fits]

/-- Settles O51: after the start, the first read fails, gives nothing, or gives its byte, and then the second read follows. -/
theorem stepsOfRdfMatchTheTwoReads : Obligations.StepsOfRdfMatchTheTwoReads := by
  intro s a1 a2 rest hinv hp hfits1 hfits2 htaken hin
  have hstep := step_rdf_of_idle hin hp
  have hinv' := stepKeepsTheReaderInvariant s _ hinv hstep
  refine readsOut_cons hstep ?_
  obtain rfl | rfl | rfl := fits_one_iff.mp hfits1
  · exact readsOut_ioError_of_first rfl rfl
  · exact readsOut_timeout_of_first hinv' rfl rfl
  · cases hrx : s.rx with
    | nil => simp [hrx, readTaken] at htaken
    | cons x r =>
      have hr : a2.taken ≤ r.length := by simpa [readTaken, hrx, Nat.add_comm 1] using htaken
      rw [hrx] at hfits2 hinv'
      exact readsOut_of_first hinv' rfl rfl hfits2 hr rfl

end Sys2Proof.Machine
end

section
/-! The cut authentication answer (R244): a frame complete at the target of its first byte, and what the decoder says of it. -/
namespace Sys2Proof

/-- R164: a known command byte in a buffer of another length than 37, whatever its trailing byte. -/
theorem decode_of_known_of_length_ne {dir : Direction} {b : List Byte} (hn : 2 ≤ b.length) (h37 : b.length ≠ 37)
    (hu : ¬unknownCommand dir (byteAt b 0)) : decode dir b = .err .checksumMismatch := by
  obtain ⟨hfull, -⟩ | ⟨-, herr⟩ := decode_known_cases hn hu
  · exact absurd hfull h37
  · exact herr

end Sys2Proof

namespace Sys2Proof.Machine

/-- From phase First, as many deliveries as the first byte aims for complete the frame and leave what stands behind it. -/
theorem readsOut_target_of_first {s : State} {x : Byte} {c r : List Byte} {rest : List Input} (hinv : s.Inv)
    (hp : s.phase = .first) (hrx : s.rx = x :: (c ++ r)) (htarget : c.length + 1 = aimedLength [x])
    (hin : s.inputs = List.replicate (c.length + 1) .deliver ++ rest) :
    s.ReadsOut (List.replicate (c.length + 1) .deliver) (.frame (x :: c)) r rest := by
  obtain ⟨t, hstep, ht⟩ := midFrame_of_first hinv hp hrx hin
  exact readsOut_cons hstep (ht.delivers_to_target (by rw [← htarget, List.length_singleton, Nat.add_comm]))

/-- Settles O50: `FrameLen(0x10)` is 16, so `readsOut_target_of_first` cuts the answer there; a known command in 16 bytes is
a checksum error. -/
theorem authenticationAnswerIsCutAt16Bytes : Obligations.AuthenticationAnswerIsCutAt16Bytes := by
  intro s uu cc more rest hinv hp hrx hin
  have hcut : s.rx = 0x10 :: (zeros 15 ++ (zeros 19 ++ [uu, cc] ++ more)) := hrx
  have htarget : (zeros 15).length + 1 = aimedLength [0x10] := by decide
  obtain ⟨t, hrun, hres, hleft, hidle, hcnt, hrest⟩ := readsOut_target_of_first hinv hp hcut htarget hin
  have hdecode : decode .response ([0x10] ++ zeros 15) = .err .checksumMismatch :=
    decode_of_known_of_length_ne (by decide) (by decide) fun hu => hu.1 rfl
  exact ⟨t, hrun, hres, hidle, hcnt, hleft, hrest, hdecode⟩

end Sys2Proof.Machine
end

section
/-! Frames written out from the layouts (V30, V31, V35, V39), and an instruction word placed for the next step (log 14, 15). -/
namespace Sys2Proof

/-- Settles O5: each frame is a sealed full frame of the kind its command byte selects, so it decodes to that kind's extraction,
which evaluates to the fields printed with the vector. -/
theorem specWordsDecodeToTheirMessages : Obligations.SpecWordsDecodeToTheirMessages := by
  refine ⟨?initiateReq, ?initiateResp, ?actionReq, ?liveEvent⟩
  case initiateReq => exact decode_ok (k := .initiateReq) rfl rfl (by decide)
  case initiateResp => exact decode_ok (k := .initiateResp) rfl rfl (by decide)
  case actionReq => exact decode_ok (k := .actionReq) rfl rfl (by decide)
  case liveEvent => exact decode_ok (k := .liveEvent) rfl rfl (by decide)

/-- A table word that decodes reaches the block as a first byte of the instruction's class, or as a buffer that decodes to
the instruction. -/
theorem decodeTableWord_eq_some {nbits w : Nat} {i : Instr} (h : decodeTableWord nbits w = some i) :
    (∃ x, tableWord nbits w = .firstByte x ∧ decodeFirstByte x = i) ∨
    (∃ dir b, tableWord nbits w = .buffer dir b ∧ decode dir b = .ok i) := by
  unfold decodeTableWord at h
  split at h
  next x hword => exact .inl ⟨x, hword, Option.some.inj h⟩
  next dir b hword =>
    split at h
    next j hdec => exact .inr ⟨dir, b, hword, Option.some.inj h ▸ hdec⟩
    next => cases h

end Sys2Proof

namespace Sys2Proof.Machine

theorem withFetchWord_of_firstByte {nbits w : Nat} {x : Byte} (h : tableWord nbits w = .firstByte x) (s : State) :
    s.withFetchWord nbits w =
      { s with phase := .first, cnt := 0, rx := x :: s.rx, inputs := .deliver :: s.inputs } :=
  congrArg (placeTableWord s) h

theorem withFetchWord_of_buffer {nbits w : Nat} {dir : Direction} {b : List Byte} (h : tableWord nbits w = .buffer dir b)
    (s : State) : s.withFetchWord nbits w = { s with inputs := .dec dir b :: s.inputs } :=
  congrArg (placeTableWord s) h

/-- Settles O9: the step takes from the inputs and the stream just what the placing put there. -/
theorem stepRunsThePlacedTableWord : Obligations.StepRunsThePlacedTableWord := by
  intro s nbits w i hword
  obtain ⟨x, hplace, rfl⟩ | ⟨dir, b, hplace, hdec⟩ := decodeTableWord_eq_some hword
  · rw [withFetchWord_of_firstByte hplace, if_neg (by simp [decodeFirstByte_not_message])]
    exact stepRunsTheFirstByteInstruction _ x s.rx s.inputs rfl rfl rfl
  · rw [withFetchWord_of_buffer hplace, if_pos (decode_ok_isMessage hdec)]
    exact stepRunsTheDecodedMessage _ dir b s.inputs i rfl hdec

theorem firstByte_of_not_first {x : Byte} {target : Count} {s : State} (hp : s.phase ≠ .first) :
    firstByte x target s = .refused .notFirstByte := by
  obtain ⟨hfirst, -⟩ | ⟨-, hrefused⟩ := firstByte_cases (x := x) (target := target) (s := s)
  · exact absurd hfirst hp
  · exact hrefused

/-- Settles O40: the three classes are `firstByte` at their targets, and that has a meaning in phase First only. -/
theorem firstByteClassesStopOutsidePhaseFirst : Obligations.FirstByteClassesStopOutsidePhaseFirst := by
  intro x s hp
  rw [exec_lenImplicit, exec_lenExplicit, exec_lenClamped]
  exact ⟨firstByte_of_not_first hp, firstByte_of_not_first hp, firstByte_of_not_first hp⟩

end Sys2Proof.Machine
end
